-- ==== Sys2Proof/Word.lean ====
section
/-! DEFINITION. The word types of the machine (`spec/10_state.md` state table). Bit 0 is the least significant
bit of every vector (`spec/00_scope.md` R7). -/

namespace Sys2Proof

/-- One byte of memory or of an instruction. -/
abbrev Byte := BitVec 8

/-- A linear address, a general register, a control register or the instruction pointer. -/
abbrev Word64 := BitVec 64

/-- A whole vector register at the largest MAXVL, 512 bits (R20). With MAXVL = 256 only bits 255:0 exist and
bits 511:256 hold zero (log entry 6). -/
abbrev VecReg := BitVec 512

/-- An opmask register at the largest KW, 64 bits (R24). With KW = 16 bits 63:16 hold zero (log entry 6). -/
abbrev Opmask := BitVec 64

end Sys2Proof
end

