-- ==== Sys2Proof/Syntax.lean ====
section
/-! DEFINITION. The instructions: one constructor per row of `spec/opcode_table.json` (`spec/30_encoding.md` R90),
carrying the fields of the abstract instruction of R70. A memory operand keeps the shape its encoding has
(R78, R81, R82), from which `MemOp.address` computes the components of `spec/20_memory.md` R53, and the length of
R89 is computed by `Instr.len` (log entry 22). -/

namespace Sys2Proof

/-- The six segment-override bytes accepted before the VEX or EVEX byte (R71): 26, 2E, 36, 3E, 64, 65. -/
inductive SegOverride where
  | es | cs | ss | ds | fs | gs
deriving DecidableEq, Repr

/-- The accepted legacy bytes: at most one segment override and at most one 67 (R71). -/
structure Prefixes where
  seg   : Option SegOverride
  asz32 : Bool
deriving DecidableEq, Repr

/-- SIB scale (R81): ss = 00, 01, 10, 11 multiply the index by 1, 2, 4, 8. -/
inductive Scale where
  | s1 | s2 | s4 | s8
deriving DecidableEq, Repr

/-- Displacement of an operand with a base register (R82): mod = 00, 01, 10, as it stands in the encoding (a
disp8 not yet scaled). -/
inductive Disp where
  | absent
  | disp8  (d : BitVec 8)
  | disp32 (d : BitVec 32)
deriving DecidableEq, Repr

/-- A memory second source, in the four shapes of R81. Registers are general-register numbers. -/
inductive MemOp where
  /-- No SIB byte: the base register alone. -/
  | base (b : Fin 16) (disp : Disp)
  /-- No SIB byte, mod = 00 and rm = 101: relative to the next instruction. -/
  | ripRel (disp : BitVec 32)
  /-- A SIB byte that names a base; `index` is `none` when the field reads 0100. -/
  | sib (scale : Scale) (index : Option (Fin 16)) (b : Fin 16) (disp : Disp)
  /-- A SIB byte without a base: mod = 00 and the SIB base field reads 101. -/
  | sibNoBase (scale : Scale) (index : Option (Fin 16)) (disp : BitVec 32)
deriving DecidableEq, Repr

/-- The second source: a vector register below `nreg`, or memory (R70). -/
inductive Src2 (nreg : Nat) where
  | reg (n : Fin nreg)
  | mem (m : MemOp)
deriving DecidableEq, Repr

/-- The operands of the VEX form: registers 0 to 15 (R79), no mask field, no zeroing bit. -/
structure VexArgs where
  pre  : Prefixes
  d    : Fin 16
  s1   : Fin 16
  src2 : Src2 16
  imm8 : Byte
deriving DecidableEq, Repr

/-- The operands of an EVEX form: registers 0 to 31 (R80), mask field `kn` and zeroing bit `z` (R84). -/
structure EvexArgs where
  pre  : Prefixes
  d    : Fin 32
  s1   : Fin 32
  src2 : Src2 32
  imm8 : Byte
  kn   : Fin 8
  z    : Bool
deriving DecidableEq, Repr

/-- The seven rows of the opcode table, in its order (R90). -/
inductive Instr where
  /-- VEX.256.66.0F3A.W0 18 /r ib (R110). -/
  | vinsertf128 (a : VexArgs)
  /-- EVEX.256.66.0F3A.W0 18 /r ib (R120). -/
  | vinsertf32x4Ymm (a : EvexArgs)
  /-- EVEX.512.66.0F3A.W0 18 /r ib (R121). -/
  | vinsertf32x4Zmm (a : EvexArgs)
  /-- EVEX.256.66.0F3A.W1 18 /r ib (R122). -/
  | vinsertf64x2Ymm (a : EvexArgs)
  /-- EVEX.512.66.0F3A.W1 18 /r ib (R123). -/
  | vinsertf64x2Zmm (a : EvexArgs)
  /-- EVEX.512.66.0F3A.W0 1A /r ib (R140). -/
  | vinsertf32x8 (a : EvexArgs)
  /-- EVEX.512.66.0F3A.W1 1A /r ib (R141). -/
  | vinsertf64x4 (a : EvexArgs)
deriving DecidableEq, Repr

end Sys2Proof
end

