-- ==== Sys2Proof/WellFormed.lean ====
section
/-! DEFINITION. Which instructions have an encoding. The field ranges of R70 are carried by the types; what is left
is checked here: the operand shapes the ModRM and SIB bytes reserve for another meaning (`spec/30_encoding.md` R81)
and a zeroing bit without a mask (R84). -/

namespace Sys2Proof

/-- A displacement that mod = 00 cannot carry for a base whose low three bits are 101 (R81). -/
def Disp.fitsBase (b : Fin 16) : Disp → Bool
  | .absent => b.val % 8 != 5
  | .disp8 _ => true
  | .disp32 _ => true

/-- R81: rm = 100 announces a SIB byte, so no bare base has low bits 100; a base with low bits 101 needs a
displacement; register 4 is no index (R53). -/
def MemOp.wellFormed : MemOp → Bool
  | .base b disp => b.val % 8 != 4 && disp.fitsBase b
  | .ripRel _ => true
  | .sib _ index b disp => index != some 4 && disp.fitsBase b
  | .sibNoBase _ index _ => index != some 4

def Src2.wellFormed {nreg : Nat} : Src2 nreg → Bool
  | .reg _ => true
  | .mem m => m.wellFormed

/-- R84: the zeroing bit is admitted only together with a mask field other than 000. -/
def maskWellFormed (kn : Fin 8) (z : Bool) : Bool := !(kn == 0 && z)

def EvexArgs.wellFormed (a : EvexArgs) : Bool := a.src2.wellFormed && maskWellFormed a.kn a.z

/-- An instruction some byte sequence encodes. -/
def Instr.wellFormed : Instr → Bool
  | .vinsertf128 a => a.src2.wellFormed
  | .vinsertf32x4Ymm a => a.wellFormed
  | .vinsertf32x4Zmm a => a.wellFormed
  | .vinsertf64x2Ymm a => a.wellFormed
  | .vinsertf64x2Zmm a => a.wellFormed
  | .vinsertf32x8 a => a.wellFormed
  | .vinsertf64x4 a => a.wellFormed

end Sys2Proof
end

