-- ==== Sys2Proof/Decode.lean ====
section
/-! DEFINITION. Decoding of any byte sequence, in the order of `spec/30_encoding.md` R96, and the encoder, written
from the same layouts (R71 to R92). 64-bit mode only (D1); whether the machine is in that mode is `step`'s check.
The CPUID conditions of R96 step 2 are checked with the other state conditions of R161, by the meanings
(log entry 13). -/

namespace Sys2Proof

/-- Why the model gives a byte sequence no meaning ("refuse" in R96: no claim about the chip). -/
inductive Undecoded where
  /-- The bytes ran out. -/
  | truncated
  /-- R96: another instruction, or none, of no concern to this spec (R5, R73). -/
  | notThisFamily
  /-- R71, D21: a second segment override or a second 67. -/
  | repeatedPrefix
  /-- R74, D5: VINSERTF128's encoding with VEX.W = 1. -/
  | vexW1
deriving DecidableEq, Repr

/-- What a byte sequence is: an instruction and the bytes after it, an encoding that raises #UD (R91), or no
meaning. -/
inductive Decoded where
  | instr (i : Instr) (rest : List Byte)
  | invalidOpcode
  | refused (why : Undecoded)
deriving DecidableEq, Repr

/-! ### Registers and fields -/

/-- R79, R81: a four-bit register number, extension bit first. -/
def reg4 (hi : Bool) (lo : BitVec 3) : Fin 16 := (BitVec.ofBool hi ++ lo).toFin

/-- R80: a five-bit register number, its two extension bits first. -/
def reg5 (hi2 hi : Bool) (lo : BitVec 3) : Fin 32 := (BitVec.ofBool hi2 ++ BitVec.ofBool hi ++ lo).toFin

/-- The three bits of a register number that stand in ModRM or SIB. -/
def low3 (n : Nat) : BitVec 3 := BitVec.ofNat 3 n

/-- R81: the SIB scale field. -/
def Scale.ofField (ss : BitVec 2) : Scale :=
  if ss = 0 then .s1 else if ss = 1 then .s2 else if ss = 2 then .s4 else .s8

def Scale.field : Scale → BitVec 2
  | .s1 => 0
  | .s2 => 1
  | .s4 => 2
  | .s8 => 3

/-! ### Legacy bytes before the VEX or EVEX byte (R71) -/

def SegOverride.byte : SegOverride → Byte
  | .es => 0x26
  | .cs => 0x2E
  | .ss => 0x36
  | .ds => 0x3E
  | .fs => 0x64
  | .gs => 0x65

def segOverrideOf (b : Byte) : Option SegOverride :=
  if b = 0x26 then some .es else if b = 0x2E then some .cs
  else if b = 0x36 then some .ss else if b = 0x3E then some .ds
  else if b = 0x64 then some .fs else if b = 0x65 then some .gs
  else none

/-- R71: LOCK (F0), 66, F2, F3 and the REX bytes 40 to 4F make a VEX or EVEX instruction raise #UD. -/
def forbiddenByte (b : Byte) : Bool :=
  b == 0xF0 || b == 0x66 || b == 0xF2 || b == 0xF3 || b.extractLsb' 4 4 == 4

def Prefixes.bytes (p : Prefixes) : List Byte :=
  (p.seg.map SegOverride.byte).toList ++ (if p.asz32 then [0x67] else [])

/-! ### ModRM, SIB, displacement (R78, R81, R82) -/

/-- R82: a four-byte displacement, lowest byte first (R52). -/
def takeDisp32 : List Byte → Option (BitVec 32 × List Byte)
  | b0 :: b1 :: b2 :: b3 :: bs => some (b3 ++ b2 ++ b1 ++ b0, bs)
  | _ => none

/-- R82: the displacement of an operand with a base, by ModRM.mod. -/
def takeDisp (mode : BitVec 2) (bs : List Byte) : Option (Disp × List Byte) :=
  if mode = 0 then some (.absent, bs)
  else if mode = 1 then
    match bs with
    | d :: bs => some (.disp8 d, bs)
    | [] => none
  else (takeDisp32 bs).map fun r => (.disp32 r.1, r.2)

/-- R81: X ++ idx = 0100 means no index. -/
def sibIndex (x : Bool) (idx : BitVec 3) : Option (Fin 16) :=
  if reg4 x idx = 4 then none else some (reg4 x idx)

/-- R81: the memory operand of a ModRM byte whose mod field is not 11. `bs` are the bytes after ModRM. -/
def takeMem (x b : Bool) (mode : BitVec 2) (rm : BitVec 3) (bs : List Byte) : Option (MemOp × List Byte) :=
  if rm = 4 then
    match bs with
    | [] => none
    | sib :: bs =>
      let scale := Scale.ofField (sib.extractLsb' 6 2)
      let index := sibIndex x (sib.extractLsb' 3 3)
      let bField := sib.extractLsb' 0 3
      if bField = 5 ∧ mode = 0 then
        (takeDisp32 bs).map fun r => (.sibNoBase scale index r.1, r.2)
      else
        (takeDisp mode bs).map fun r => (.sib scale index (reg4 b bField) r.1, r.2)
  else if mode = 0 ∧ rm = 5 then
    (takeDisp32 bs).map fun r => (.ripRel r.1, r.2)
  else
    (takeDisp mode bs).map fun r => (.base (reg4 b rm) r.1, r.2)

/-- R78: the second source. `regNo` makes the register number of a mod = 11 encoding out of ModRM.rm. -/
def takeSrc2 {nreg : Nat} (regNo : BitVec 3 → Fin nreg) (x b : Bool) (mode : BitVec 2) (rm : BitVec 3)
    (bs : List Byte) : Option (Src2 nreg × List Byte) :=
  if mode = 3 then some (.reg (regNo rm), bs)
  else (takeMem x b mode rm bs).map fun r => (.mem r.1, r.2)

/-- What follows the opcode byte (R89): ModRM, SIB, displacement, imm8. Gives ModRM.reg, the second source, the
immediate (R83: the last byte) and the bytes after the instruction. -/
def takeOperands {nreg : Nat} (regNo : BitVec 3 → Fin nreg) (x b : Bool) :
    List Byte → Option (BitVec 3 × Src2 nreg × Byte × List Byte)
  | [] => none
  | modrm :: bs =>
    match takeSrc2 regNo x b (modrm.extractLsb' 6 2) (modrm.extractLsb' 0 3) bs with
    | some (src2, imm8 :: rest) => some (modrm.extractLsb' 3 3, src2, imm8, rest)
    | some (_, []) => none
    | none => none

/-! ### The VEX form (R72, R74, R79) -/

/-- The bytes after C4. R74: with L = 0 the instruction raises #UD, with W = 1 the model refuses it. -/
def decodeVex (p : Prefixes) : List Byte → Decoded
  | b1 :: b2 :: op :: bs =>
    let r := !b1.getLsbD 7
    let x := !b1.getLsbD 6
    let b := !b1.getLsbD 5
    if b1.extractLsb' 0 5 ≠ 3 ∨ b2.extractLsb' 0 2 ≠ 1 ∨ op ≠ 0x18 then .refused .notThisFamily
    else if b2.getLsbD 2 = false then .invalidOpcode
    else if b2.getLsbD 7 then .refused .vexW1
    else
      match takeOperands (reg4 b) x b bs with
      | some (reg, src2, imm8, rest) =>
        .instr (.vinsertf128
          { pre := p, d := reg4 r reg, s1 := (~~~ b2.extractLsb' 3 4).toFin, src2 := src2, imm8 := imm8 }) rest
      | none => .refused .truncated
  | _ => .refused .truncated

/-! ### The EVEX forms (R75, R76, R77, R80, R84, R85) -/

/-- R77: the opcode byte, W and L'L select the row. -/
def evexRow (op : Byte) (w : Bool) (ll : BitVec 2) : Option (EvexArgs → Instr) :=
  if op = 0x18 then
    if ll = 1 then some (if w then .vinsertf64x2Ymm else .vinsertf32x4Ymm)
    else if ll = 2 then some (if w then .vinsertf64x2Zmm else .vinsertf32x4Zmm)
    else none
  else if ll = 2 then some (if w then .vinsertf64x4 else .vinsertf32x8)
  else none

/-- The bytes after 62. R96 finds the #UD of a wrong reserved bit after P2, before the opcode byte; here the opcode byte
must be there too, so that bytes that end between the two are `truncated`, the refusal R91 allows in place of that #UD
(log entry 13). -/
def decodeEvex (p : Prefixes) : List Byte → Decoded
  | p0 :: p1 :: p2 :: op :: bs =>
    let r := !p0.getLsbD 7
    let x := !p0.getLsbD 6
    let b := !p0.getLsbD 5
    let r' := !p0.getLsbD 4
    let v' := !p2.getLsbD 3
    let kn : Fin 8 := (p2.extractLsb' 0 3).toFin
    let z := p2.getLsbD 7
    if p0.extractLsb' 2 2 ≠ 0 ∨ p1.getLsbD 2 = false then .invalidOpcode
    else if p0.extractLsb' 0 2 ≠ 3 ∨ p1.extractLsb' 0 2 ≠ 1 ∨ (op ≠ 0x18 ∧ op ≠ 0x1A) then
      .refused .notThisFamily
    else
      match evexRow op (p1.getLsbD 7) (p2.extractLsb' 5 2) with
      | none => .invalidOpcode
      | some row =>
        if p2.getLsbD 4 then .invalidOpcode
        else if maskWellFormed kn z = false then .invalidOpcode
        else
          match takeOperands (reg5 x b) x b bs with
          | some (reg, src2, imm8, rest) =>
            .instr (row
              { pre := p, d := reg5 r' r reg
                s1 := (BitVec.ofBool v' ++ ~~~ p1.extractLsb' 3 4).toFin
                src2 := src2, imm8 := imm8, kn := kn, z := z }) rest
          | none => .refused .truncated
  | _ => .refused .truncated

/-! ### The whole instruction (R96) -/

/-- R96 step 1, then the C4 or 62 byte. `p` holds the accepted bytes read so far; `bad` says that a byte was read
that makes a VEX or EVEX instruction raise #UD (R71). It does so only once the C4 or 62 byte is reached: before any
other byte it belongs to an instruction outside this spec (log entry 11). -/
def decodeFrom (p : Prefixes) (bad : Bool) : List Byte → Decoded
  | [] => .refused .truncated
  | b :: bs =>
    if b = 0xC4 then if bad then .invalidOpcode else decodeVex p bs
    else if b = 0x62 then if bad then .invalidOpcode else decodeEvex p bs
    else if forbiddenByte b then decodeFrom p true bs
    else if b = 0x67 then
      if bad then decodeFrom p true bs
      else if p.asz32 then .refused .repeatedPrefix
      else decodeFrom { p with asz32 := true } false bs
    else
      match segOverrideOf b with
      | some g =>
        if bad then decodeFrom p true bs
        else if p.seg.isSome then .refused .repeatedPrefix
        else decodeFrom { p with seg := some g } false bs
      | none => .refused .notThisFamily

/-- The instruction at the head of a byte sequence. Total: every sequence is an instruction, #UD or refused by
name. -/
def decode (bs : List Byte) : Decoded := decodeFrom { seg := none, asz32 := false } false bs

/-! ### Length (R89) -/

def Disp.len : Disp → Nat
  | .absent => 0
  | .disp8 _ => 1
  | .disp32 _ => 4

/-- SIB and displacement bytes. -/
def MemOp.len : MemOp → Nat
  | .base _ disp => disp.len
  | .ripRel _ => 4
  | .sib _ _ _ disp => 1 + disp.len
  | .sibNoBase _ _ _ => 5

def Src2.len {nreg : Nat} : Src2 nreg → Nat
  | .reg _ => 0
  | .mem m => m.len

def Prefixes.len (p : Prefixes) : Nat := (if p.seg.isSome then 1 else 0) + (if p.asz32 then 1 else 0)

/-- R89: legacy bytes, 3 for VEX, opcode, ModRM, SIB and displacement, imm8. -/
def VexArgs.len (a : VexArgs) : Nat := a.pre.len + 3 + 1 + 1 + a.src2.len + 1

/-- R89: legacy bytes, 4 for EVEX, opcode, ModRM, SIB and displacement, imm8. -/
def EvexArgs.len (a : EvexArgs) : Nat := a.pre.len + 4 + 1 + 1 + a.src2.len + 1

def Instr.len : Instr → Nat
  | .vinsertf128 a => a.len
  | .vinsertf32x4Ymm a => a.len
  | .vinsertf32x4Zmm a => a.len
  | .vinsertf64x2Ymm a => a.len
  | .vinsertf64x2Zmm a => a.len
  | .vinsertf32x8 a => a.len
  | .vinsertf64x4 a => a.len

/-! ### Encoder -/

def disp32Bytes (d : BitVec 32) : List Byte :=
  [d.extractLsb' 0 8, d.extractLsb' 8 8, d.extractLsb' 16 8, d.extractLsb' 24 8]

def Disp.mode : Disp → BitVec 2
  | .absent => 0
  | .disp8 _ => 1
  | .disp32 _ => 2

def Disp.bytes : Disp → List Byte
  | .absent => []
  | .disp8 d => [d]
  | .disp32 d => disp32Bytes d

/-- R81: the number the index field and X carry; 0100 when there is no index. -/
def indexNo (index : Option (Fin 16)) : Nat := (index.getD 4).val

def sibByte (scale : Scale) (index : Option (Fin 16)) (bField : BitVec 3) : Byte :=
  scale.field ++ low3 (indexNo index) ++ bField

/-- X as used (not inverted): the top bit of a register source (R80) or of the index register (R81). -/
def Src2.xBit {nreg : Nat} : Src2 nreg → Bool
  | .reg n => n.val.testBit 4
  | .mem (.base _ _) => false
  | .mem (.ripRel _) => false
  | .mem (.sib _ index _ _) => (indexNo index).testBit 3
  | .mem (.sibNoBase _ index _) => (indexNo index).testBit 3

/-- B as used: bit 3 of a register source (R79, R80) or of the base register (R81). -/
def Src2.bBit {nreg : Nat} : Src2 nreg → Bool
  | .reg n => n.val.testBit 3
  | .mem (.base b _) => b.val.testBit 3
  | .mem (.ripRel _) => false
  | .mem (.sib _ _ b _) => b.val.testBit 3
  | .mem (.sibNoBase _ _ _) => false

def Src2.mode {nreg : Nat} : Src2 nreg → BitVec 2
  | .reg _ => 3
  | .mem (.base _ disp) => disp.mode
  | .mem (.ripRel _) => 0
  | .mem (.sib _ _ _ disp) => disp.mode
  | .mem (.sibNoBase _ _ _) => 0

def Src2.rm {nreg : Nat} : Src2 nreg → BitVec 3
  | .reg n => low3 n.val
  | .mem (.base b _) => low3 b.val
  | .mem (.ripRel _) => 5
  | .mem (.sib _ _ _ _) => 4
  | .mem (.sibNoBase _ _ _) => 4

/-- The SIB and displacement bytes. -/
def Src2.trail {nreg : Nat} : Src2 nreg → List Byte
  | .reg _ => []
  | .mem (.base _ disp) => disp.bytes
  | .mem (.ripRel d) => disp32Bytes d
  | .mem (.sib scale index b disp) => sibByte scale index (low3 b.val) :: disp.bytes
  | .mem (.sibNoBase scale index d) => sibByte scale index 5 :: disp32Bytes d

/-- ModRM, SIB, displacement, imm8 (R89). -/
def operandBytes {nreg : Nat} (reg : BitVec 3) (src2 : Src2 nreg) (imm8 : Byte) : List Byte :=
  (src2.mode ++ reg ++ src2.rm) :: (src2.trail ++ [imm8])

/-- R72, R74: C4, inverted R X B and map 00011, W = 0 and inverted vvvv and L = 1 and pp = 01, opcode 18. -/
def encodeVex (a : VexArgs) : List Byte :=
  a.pre.bytes ++
    (0xC4 ::
     (BitVec.ofBool (!a.d.val.testBit 3) ++ BitVec.ofBool (!a.src2.xBit) ++ BitVec.ofBool (!a.src2.bBit) ++ 3#5) ::
     (0#1 ++ ~~~ BitVec.ofNat 4 a.s1.val ++ 1#1 ++ 1#2) ::
     0x18 ::
     operandBytes (low3 a.d.val) a.src2 a.imm8)

/-- R75 to R77: 62, P0 (inverted R X B R', 00, mm = 11), P1 (W, inverted vvvv, 1, pp = 01), P2 (z, L'L, b = 0,
inverted V', aaa), opcode. -/
def encodeEvex (op : Byte) (w : Bool) (ll : BitVec 2) (a : EvexArgs) : List Byte :=
  a.pre.bytes ++
    (0x62 ::
     (BitVec.ofBool (!a.d.val.testBit 3) ++ BitVec.ofBool (!a.src2.xBit) ++ BitVec.ofBool (!a.src2.bBit) ++
       BitVec.ofBool (!a.d.val.testBit 4) ++ 0#2 ++ 3#2) ::
     (BitVec.ofBool w ++ ~~~ BitVec.ofNat 4 a.s1.val ++ 1#1 ++ 1#2) ::
     (BitVec.ofBool a.z ++ ll ++ 0#1 ++ BitVec.ofBool (!a.s1.val.testBit 4) ++ BitVec.ofNat 3 a.kn.val) ::
     op ::
     operandBytes (low3 a.d.val) a.src2 a.imm8)

/-- The bytes of a well-formed instruction. Ignored bits (R92) are written as the complement of 0. -/
def encode : Instr → List Byte
  | .vinsertf128 a => encodeVex a
  | .vinsertf32x4Ymm a => encodeEvex 0x18 false 1 a
  | .vinsertf32x4Zmm a => encodeEvex 0x18 false 2 a
  | .vinsertf64x2Ymm a => encodeEvex 0x18 true 1 a
  | .vinsertf64x2Zmm a => encodeEvex 0x18 true 2 a
  | .vinsertf32x8 a => encodeEvex 0x1A false 2 a
  | .vinsertf64x4 a => encodeEvex 0x1A true 2 a

/-! ### The opcode table's numbering -/

/-- `n` bytes of `w`, the first from bits 7:0, the second from bits 15:8, and so on. -/
def bytesOfNat : Nat → Nat → List Byte
  | 0, _ => []
  | n + 1, w => BitVec.ofNat 8 w :: bytesOfNat n (w / 256)

/-- R97: no instruction is longer than 15 bytes. -/
def maxLen : Nat := 15

/-- The bytes of an instruction whose first `nbits` bits are `w`, every later bit 0. -/
def tableBytes (nbits w : Nat) : List Byte := bytesOfNat maxLen (w % 2 ^ nbits)

/-- The instruction the decoder reads from a word numbered as `spec/opcode_table.json` numbers it. -/
def decodeTableWord (nbits w : Nat) : Option Instr :=
  match decode (tableBytes nbits w) with
  | .instr i _ => some i
  | .invalidOpcode => none
  | .refused _ => none

/-- How many of those bytes are the program: the instruction's own, or all where they are no instruction (log entry
20). -/
def tableLen (nbits w : Nat) : Nat :=
  match decodeTableWord nbits w with
  | some i => i.len
  | none => maxLen

end Sys2Proof
end

