-- ==== Sys2Proof/Config.lean ====
section
/-! DEFINITION. What one implementation fixes: the OPEN parameters of `spec/00_scope.md` R6. They are plain data
held in `State.cfg` and changed by no step, so that a statement over every state is a statement over every
admissible implementation. The model has no free value (no opaque constant): see NOTES.md. -/

namespace Sys2Proof

/-- The CPUID feature flags an opcode-table row can name (`spec/10_state.md` R32). -/
inductive Feature where
  | avx | avx512f | avx512vl | avx512dq
deriving DecidableEq, Repr

/-- The AVX-512 extensions an AVX512F implementation may add. They are nested under AVX512F because "AVX512VL or
AVX512DQ without AVX512F is an inadmissible configuration" (`spec/92_eei_decisions.md` D3): such a
configuration cannot be written down. -/
structure Avx512 where
  vl : Bool
  dq : Bool
deriving DecidableEq, Repr

/-- KW, the width of an opmask register: 16 or 64 (R6, R24). -/
inductive OpmaskWidth where
  | kw16 | kw64
deriving DecidableEq, Repr

/-- LAW, the linear-address width of the canonical check: 48 or 57 (R6, R57). -/
inductive LinearWidth where
  | law48 | law57
deriving DecidableEq, Repr

/-- A range of linear addresses a read may touch without a page fault: `base`, ..., `base + size - 1`. -/
structure Region where
  base : Nat
  size : Nat
deriving DecidableEq, Repr

/-- The parameters of R6 that are not computed from other state. `avx512` is `none` when AVX512F = 0.
DESIGN CHOICE (log entries 4 and 5). -/
structure Config where
  avx      : Bool
  avx512   : Option Avx512
  kw       : OpmaskWidth
  law      : LinearWidth
  readable : List Region
deriving DecidableEq, Repr

end Sys2Proof
end

