-- ==== Sys2Proof/Machine/State.lean ====
section
/-! DEFINITION. The state of the machine: every register `spec/10_state.md` names, the control bits of its R31, the
memory of R34 and the parameters of `spec/00_scope.md` R6; the faults of `spec/60_exceptions.md` R160 and the
refusals the spec asks the model for; and the launch state `State.reset`. INVENTORY.md lists every field with its
rule and its reset value. -/

namespace Sys2Proof.Machine

/-- The processor modes the spec names (R5, R161 item 6). P_mode64 of R191 is `bits64`. -/
inductive Mode where
  | bits64 | compatibility | protectedMode | realAddress | virtual8086
deriving DecidableEq, Repr

/-- Bytes of memory by linear address, strictly rising, none equal to what an unlisted address reads as (0,
log entry 3). `Memory.wf` states the form. -/
abbrev Memory := List Host.Cell

structure State where
  /-- The implementation's parameters (R6, R32); no step changes them. -/
  cfg    : Config
  /-- The processor mode (R5, R191 P_mode64). -/
  mode   : Mode
  /-- The privilege level, 0 to 3; read only by alignment checking (R31, R173). -/
  cpl    : Fin 4
  /-- Vector registers (R20, R22). -/
  v      : Vector VecReg 32
  /-- Opmask registers (R24). -/
  k      : Vector Opmask 8
  /-- General registers, in the numbering of R26. -/
  x      : Vector Word64 16
  /-- Instruction pointer (R27). -/
  rip    : Word64
  /-- The model's own: the run has begun, so that `rip` need no longer be where the program starts (R194, log
  entry 18). False at every launch; an instruction that completes makes it true. -/
  running : Bool
  /-- The model's own: an instruction of this run has ended at or past address 2^64 - 1, so that `rip` has wrapped and
  the program may not go on (R28, D16, log entry 18). -/
  wrapped : Bool
  /-- The program text: the addresses S = `base` to E = `base + size`, exclusive, of the program that runs (R194, P_text
  of R191). A parameter of the step (R195); no step changes it (R67, D17, log entries 18, 20). -/
  text   : Region
  /-- FS segment base (R33). -/
  fsBase : Word64
  /-- GS segment base (R33). -/
  gsBase : Word64
  /-- Flags register (R29); only bit 18, AC, is ever read (R31). -/
  rflags : Word64
  /-- MXCSR (R30): neither read nor written by the family. -/
  mxcsr  : BitVec 32
  /-- CR0: bit 3 TS, bit 18 AM (R31). -/
  cr0    : Word64
  /-- CR2, the register a page fault's address goes to (R165). No instruction reads or writes it: delivery is not
  modelled (R170), the fault outcome holds the operand's range. -/
  cr2    : Word64
  /-- CR4: bit 18 OSXSAVE (R31). -/
  cr4    : Word64
  /-- XCR0: bits 1 SSE, 2 AVX, 5 opmask, 6 ZMM_Hi256, 7 Hi16_ZMM (R31). -/
  xcr0   : Word64
  /-- Memory (R34, R50). -/
  mem    : Memory
deriving DecidableEq, Repr

/-- The exceptions of R160. Each ends the run: "An exception of rule R160 ends the run in a fault outcome that
records the exception symbol, its error code if any, and the `rip` of the faulting instruction" (R170, D13). -/
inductive Fault where
  /-- #UD, vector 6, no error code. Raised by `step` on an encoding of R91 and by the checks of every meaning
  (R161). SAFE: the run ends as the spec says. -/
  | invalidOpcode (rip : Word64)
  /-- #NM, vector 7, no error code. Raised by the checks of every meaning when CR0.TS = 1 (R162). SAFE. -/
  | deviceNotAvailable (rip : Word64)
  /-- #SS(0), vector 12. Raised by a memory operand with a non-canonical byte in the stack segment (R164). SAFE. -/
  | stackSegment (rip : Word64)
  /-- #GP(0), vector 13. Raised by a memory operand with a non-canonical byte outside the stack segment (R163).
  SAFE. -/
  | generalProtection (rip : Word64)
  /-- #PF, vector 14, its code not computed. Raised by a memory operand with an unreadable byte; records the
  operand's address range (R165). SAFE. -/
  | pageFault (addr : Word64) (bytes : Nat) (rip : Word64)
deriving DecidableEq, Repr

/-- Where the spec asks the model to give no outcome ("refuse"). Every one is SAFE: no claim about the chip. -/
inductive Refusal where
  /-- An instruction whose meaning is not written yet. No arm of `exec` raises it. SAFE. -/
  | notModelled (mnemonic : String)
  /-- `step` outside 64-bit mode: the bytes cannot be decoded (R5, R191 P_mode64, D1). SAFE. -/
  | outside64BitMode
  /-- A memory operand outside 64-bit mode: R53 to R57 form addresses for 64-bit mode only (R33, D1). SAFE. -/
  | addressingOutside64BitMode
  /-- `step`: a byte of the program text is unreadable, not canonical or past address 2^64 - 1, or the text ends within
  an instruction (R28, R191 P_text, R194, D16, D17). SAFE. -/
  | programText
  /-- `step` at an address outside the program text: there is no program, or it has ended (R194, R195, D22). SAFE. -/
  | outsideProgram
  /-- `step`, of a launch whose `rip` is inside the program text but not at its start S (R191 P_text, R194). SAFE. -/
  | launchNotAtStart
  /-- `step`: the bytes are no instruction of the family (R96, R5). SAFE. -/
  | notThisFamily
  /-- `step`: a second segment override or a second 67 (R71, D21). SAFE. -/
  | repeatedPrefix
  /-- `step`: over 15 bytes (R97, D21). SAFE. -/
  | tooLong
  /-- `step`: VINSERTF128 with VEX.W = 1 (R74, D5). SAFE. -/
  | vexW1
  /-- A memory operand whose bytes would pass address 2^64 - 1 (R50, D28). SAFE. -/
  | operandWraps
  /-- Alignment checking is in force: `step`, of every launch, and a memory operand (R58, R166, R191 P_no_ac, D9).
  SAFE. -/
  | alignmentChecking
  /-- `step` after an instruction that ended at address 2^64 - 1: the program would go on at address 0 (R28, D16).
  SAFE. -/
  | programWraps
deriving DecidableEq, Repr

/-- The launch state (R190: the model has no reset). It meets the launch premises of R191; log entries 1 to 5 name
every value. -/
def State.reset : State where
  cfg :=
    { avx := true, avx512 := some { vl := true, dq := true }, kw := .kw64, law := .law48
      readable := [{ base := 0, size := 2 ^ 64 }] }
  mode := .bits64
  cpl := 0
  v := Vector.replicate 32 0
  k := Vector.replicate 8 0
  x := Vector.replicate 16 0
  rip := 0xFFFFFFF0
  running := false
  wrapped := false
  text := { base := 0xFFFFFFF0, size := 0 }
  fsBase := 0
  gsBase := 0
  rflags := 2
  mxcsr := 0x1F80
  cr0 := 0x60000010
  cr2 := 0
  cr4 := 0x40000
  xcr0 := 0xE7
  mem := []

end Sys2Proof.Machine
end

