-- ==== Sys2Proof/Machine/Flags.lean ====
section
/-! DEFINITION. The flags and control bits an instruction of the family reads. It computes no flag: "The family
reads no status flag and writes none" (`spec/10_state.md` R29), nor MXCSR (R30). What is read are the gating bits
of R31. -/

namespace Sys2Proof.Machine

/-- CR0.TS, bit 3 (R31). -/
def State.ts (s : State) : Bool := s.cr0.getLsbD 3

/-- CR0.AM, bit 18 (R31). -/
def State.am (s : State) : Bool := s.cr0.getLsbD 18

/-- RFLAGS.AC, bit 18 (R31). -/
def State.ac (s : State) : Bool := s.rflags.getLsbD 18

/-- CR4.OSXSAVE, bit 18 (R31). -/
def State.osxsave (s : State) : Bool := s.cr4.getLsbD 18

/-- XCR0[2:1] = 11: SSE and AVX state enabled (R31, R191 P_xcr0_avx). -/
def State.avxEnabled (s : State) : Bool := s.xcr0.extractLsb' 1 2 == 3

/-- XCR0[7:5] = 111: opmask, ZMM_Hi256 and Hi16_ZMM state enabled (R31, R191 P_xcr0_avx512). -/
def State.avx512Enabled (s : State) : Bool := s.xcr0.extractLsb' 5 3 == 7

/-- `ac_enabled`: CR0.AM = 1 and RFLAGS.AC = 1 and CPL = 3 (R6, R31). -/
def State.acEnabled (s : State) : Bool := s.am && s.ac && s.cpl == 3

end Sys2Proof.Machine
end

