-- ==== Sys2Proof/Machine/Ops.lean ====
section
/-! DEFINITION. The named operations every meaning is made of: parameters, memory, vector registers, raising an
exception, the checks before execution, the admitted read, instruction fetch, and the advance of `rip`. -/

namespace Sys2Proof

/-! ### Parameters (`spec/00_scope.md` R6) -/

/-- The value of a CPUID feature flag (R32). VL and DQ imply F by the shape of `Config`. -/
def Config.has (c : Config) : Feature → Bool
  | .avx => c.avx
  | .avx512f => c.avx512.isSome
  | .avx512vl => c.avx512.any (·.vl)
  | .avx512dq => c.avx512.any (·.dq)

/-- MAXVL: 512 with AVX512F, else 256 (R6, D2). -/
def Config.maxvl (c : Config) : Nat := if c.has .avx512f then 512 else 256

/-- NVEC: 32 vector registers with AVX512F, else 16 (R6, R20, D25). -/
def Config.nvec (c : Config) : Nat := if c.has .avx512f then 32 else 16

def OpmaskWidth.bits : OpmaskWidth → Nat
  | .kw16 => 16
  | .kw64 => 64

def LinearWidth.bits : LinearWidth → Nat
  | .law48 => 48
  | .law57 => 57

/-- R57: bits 63 down to LAW - 1 are all equal. -/
def LinearWidth.canonical (law : LinearWidth) (a : Word64) : Bool :=
  a >>> (law.bits - 1) == 0 || a >>> (law.bits - 1) == BitVec.allOnes 64 >>> (law.bits - 1)

def Region.covers (r : Region) (a : Nat) : Bool := r.base ≤ a && a < r.base + r.size

end Sys2Proof

namespace Sys2Proof.Machine

/-- What an operation answers: a value to go on with, a fault or a refusal. -/
abbrev Result (α : Type) := Host.Outcome α Fault Refusal

/-- Go on with the value, or stop as the first operation stopped. -/
def Result.andThen {α β : Type} (r : Result α) (f : α → Result β) : Result β :=
  match r with
  | .next a => f a
  | .fault e => .fault e
  | .refused e => .refused e

/-! ### Exceptions (`spec/60_exceptions.md`) -/

/-- Taking an exception, as R170 has it: the run ends in a fault outcome that records the exception and the `rip`
of the instruction, and no state has been written. Delivery through the interrupt table "is not modelled, and must
not be assumed from this spec in any detail", and no return instruction exists (R171). -/
def raise {α : Type} (exception : Word64 → Fault) (s : State) : Result α := .fault (exception s.rip)

/-- The vector numbers of R160. -/
def Fault.vector : Fault → Nat
  | .invalidOpcode _ => 6
  | .deviceNotAvailable _ => 7
  | .stackSegment _ => 12
  | .generalProtection _ => 13
  | .pageFault _ _ _ => 14

/-- An exception's error code as R160 gives it. #PF has one that the model does not compute (R165, X8). -/
inductive ErrorCode where
  | none | zero | notComputed
deriving DecidableEq, Repr

def Fault.errorCode : Fault → ErrorCode
  | .invalidOpcode _ => .none
  | .deviceNotAvailable _ => .none
  | .stackSegment _ => .zero
  | .generalProtection _ => .zero
  | .pageFault _ _ _ => .notComputed

/-- The `rip` a fault outcome records (R170). -/
def Fault.rip : Fault → Word64
  | .invalidOpcode rip => rip
  | .deviceNotAvailable rip => rip
  | .stackSegment rip => rip
  | .generalProtection rip => rip
  | .pageFault _ _ rip => rip

/-! ### Memory (`spec/20_memory.md` R50, R52) -/

/-- Canonical from address `lo` on: addresses strictly rising below 2^64, no entry 0. -/
def Memory.wfFrom (lo : Nat) : Memory → Bool
  | [] => true
  | (a, b) :: m => decide (lo ≤ a) && decide (a < 2 ^ 64) && b != 0 && Memory.wfFrom (a + 1) m

/-- The one canonical form of a memory. -/
def Memory.wf (m : Memory) : Bool := Memory.wfFrom 0 m

/-- The byte at an address; an unlisted address reads 0 (log entry 3). -/
def Memory.readByte : Memory → Nat → Byte
  | [], _ => 0
  | (k, b) :: m, a => if k = a then b else Memory.readByte m a

/-- Put an entry in front, unless it is what an unlisted address reads as. -/
def Memory.cons (a : Nat) (b : Byte) (m : Memory) : Memory := if b = 0 then m else (a, b) :: m

/-- Write one byte, keeping the canonical form. -/
def Memory.writeByte (a : Nat) (b : Byte) : Memory → Memory
  | [] => Memory.cons a b []
  | (k, c) :: m =>
    if a < k then Memory.cons a b ((k, c) :: m)
    else if a = k then Memory.cons a b m
    else (k, c) :: Memory.writeByte a b m

/-- Bytes at ascending addresses: `MemWrite` of R9 ("defined for completeness", used by no instruction). -/
def Memory.writeBytes (m : Memory) (a : Nat) : List Byte → Memory
  | [] => m
  | b :: bs => Memory.writeBytes (Memory.writeByte a b m) (a + 1) bs

/-- R52, little-endian: the byte at `a + i` gives bits 8i+7:8i, for the first `n` bytes. -/
def Memory.load (w : Nat) (m : Memory) (a : Nat) : Nat → BitVec w
  | 0 => 0
  | n + 1 => Memory.load w m a n ||| ((m.readByte (a + n)).setWidth w <<< (8 * n))

/-- Some region admits a read of the byte at `a` (R57, R63, log entry 4). -/
def State.byteReadable (s : State) (a : Nat) : Bool := s.cfg.readable.any (·.covers a)

/-- `readable(addr, n)` of R6: every byte of the range may be read. -/
def State.readable (s : State) (a n : Nat) : Bool := (List.range n).all fun i => s.byteReadable (a + i)

/-- Every byte address of a range is canonical (R57). -/
def State.canonicalRange (s : State) (a n : Nat) : Bool :=
  (List.range n).all fun i => s.cfg.law.canonical (BitVec.ofNat 64 (a + i))

/-- `MemRead(addr, w / 8)`, admitted as R50 and R57 say, in the order of R168. `stack` says that the segment is SS
(R56). Under alignment checking, last in R168, every memory operand is refused (R58, R166, D9, log entry 16). -/
def memRead (w : Nat) (stack : Bool) (addr : Word64) (s : State) : Result (BitVec w) :=
  let n := w / 8
  let a := addr.toNat
  if a + n > 2 ^ 64 then .refused .operandWraps
  else if s.canonicalRange a n = false then
    if stack then raise .stackSegment s else raise .generalProtection s
  else if s.readable a n = false then raise (.pageFault addr n) s
  else if s.acEnabled then .refused .alignmentChecking
  else .next (Memory.load w s.mem a n)

/-! ### Vector and opmask registers (`spec/10_state.md` R22, `spec/00_scope.md` R14) -/

/-- The low `w` bits of a vector register: its xmm, ymm or zmm view (R22). -/
def State.view (w : Nat) (n : Fin 32) (s : State) : BitVec w := (s.v.get n).setWidth w

/-- WRITEVEC (R14): the whole register is written, the bits above the value zero. -/
def State.writeVec {vl : Nat} (d : Fin 32) (r : BitVec vl) (s : State) : State :=
  { s with v := s.v.set d (r.setWidth 512) }

/-- The writemask in force: none for the mask field 000, else the selected opmask register (R25, R84). -/
def State.writemask (kn : Fin 8) (s : State) : Option Opmask := if kn = 0 then none else some (s.k.get kn)

/-- `rip` and `len` bytes on reach address 2^64, where `rip` wraps to 0 (R28). -/
def State.reachesTop (len : Nat) (s : State) : Bool := decide (2 ^ 64 ≤ s.rip.toNat + len)

/-- `rip <- rip + len`, modulo 2^64 (R28), and the notes that the run has begun and whether `rip` wraps (log
entry 18). -/
def State.advance (len : Nat) (s : State) : State :=
  { s with rip := s.rip + BitVec.ofNat 64 len, running := true, wrapped := s.wrapped || s.reachesTop len }

/-! ### The checks before execution (R161, R162) -/

/-- R161 item 6: VEX and EVEX encodings are not recognised in real-address and virtual-8086 mode. -/
def Mode.recognisesVex : Mode → Bool
  | .bits64 => true
  | .compatibility => true
  | .protectedMode => true
  | .realAddress => false
  | .virtual8086 => false

/-- #UD (R161 items 2, 3, 6) before #NM (R162), before any memory access (R168). `needs` are the flags of the
form's row (R32). -/
def checkForm (evex : Bool) (needs : List Feature) (s : State) : Result Unit :=
  if s.mode.recognisesVex && needs.all s.cfg.has && s.osxsave && s.avxEnabled && (!evex || s.avx512Enabled) then
    if s.ts then raise .deviceNotAvailable s else .next ()
  else raise .invalidOpcode s

/-- The checks of an EVEX form: those of R161 and R162, and z = 1 with aaa = 000 (R84, R161 item 5). -/
def checkEvex (needs : List Feature) (kn : Fin 8) (z : Bool) (s : State) : Result Unit :=
  if maskWellFormed kn z then checkForm true needs s else raise .invalidOpcode s

/-! ### Launch premises whose failure refuses the launch (`spec/70_reset_and_hazards.md` R191, `spec/10_state.md` R28) -/

/-- A byte of program text: below 2^64, canonical and readable (R28, R191, D16, D17). -/
def State.fetchable (s : State) (a : Nat) : Bool :=
  decide (a < 2 ^ 64) && s.cfg.law.canonical (BitVec.ofNat 64 a) && s.byteReadable a

/-- P_text of R191: every byte of the program, from S to E, is readable and canonical. Nothing is asked of the address
E itself, at which no instruction of the program stands: DESIGN CHOICE, log entry 24. -/
def State.textFetchable (s : State) : Bool :=
  (List.range s.text.size).all fun i => s.fetchable (s.text.base + i)

/-- Why the model refuses to run from `s`, if it does: P_mode64 (D1), P_no_ac (D9), a program that would go on past
address 2^64 - 1 (R28, D16), P_text (D17), no program at `rip` (R194, R195), or a run that would not start at S (R194,
"at the launch `rip`" of P_text). No instruction changes what the first, second and fourth look at, and the last looks
at a launch alone, so what these four refuse is the launch: no instruction of the program runs. -/
def State.launchRefusal (s : State) : Option Refusal :=
  if s.mode ≠ .bits64 then some .outside64BitMode
  else if s.acEnabled then some .alignmentChecking
  else if s.wrapped then some .programWraps
  else if s.textFetchable = false then some .programText
  else if s.text.covers s.rip.toNat = false then some .outsideProgram
  else if s.running = false ∧ s.rip.toNat ≠ s.text.base then some .launchNotAtStart
  else none

/-! ### Fetch (`spec/10_state.md` R27, `spec/70_reset_and_hazards.md` R191 P_text) -/

/-- The program's bytes from `rip` up to E, at most the 15 an instruction may have (R97, R194). That they may be
fetched is a premise of the launch. -/
def State.fetch (s : State) : List Byte :=
  (List.range (min maxLen (s.text.base + s.text.size - s.rip.toNat))).map fun i => s.mem.readByte (s.rip.toNat + i)

/-- What `step` answers for bytes that are no instruction: "refuse" of R96. Bytes that run out did so because the
program ends within an instruction (R194), or because 15 bytes held no whole instruction (R97). -/
def refuseBytes {α : Type} (fetched : List Byte) : Undecoded → Result α
  | .truncated => if fetched.length < maxLen then .refused .programText else .refused .tooLong
  | .notThisFamily => .refused .notThisFamily
  | .repeatedPrefix => .refused .repeatedPrefix
  | .vexW1 => .refused .vexW1

end Sys2Proof.Machine
end

