-- ==== Sys2Proof/Machine/Operands.lean ====
section
/-! DEFINITION. Operand forms: addresses (`spec/20_memory.md` R53 to R56), the second source (R51), and the
primitives SEL, INSERT and MASKED (`spec/00_scope.md` R11 to R13). -/

namespace Sys2Proof

/-- The factor of a scale (R81). -/
def Scale.factor : Scale → Nat
  | .s1 => 1
  | .s2 => 2
  | .s4 => 4
  | .s8 => 8

/-- The displacement of R82, sign-extended to 64 bits; a disp8 is multiplied by N (R88; N = 1 for VEX), a disp32
never. -/
def Disp.value (n : Nat) : Disp → Word64
  | .absent => 0
  | .disp8 d => d.signExtend 64 * BitVec.ofNat 64 n
  | .disp32 d => d.signExtend 64

namespace Machine

/-- The address components of R53, but for the address size and the segment, which the legacy bytes carry. -/
structure Address where
  base   : Option (Fin 16)
  index  : Option (Fin 16)
  scale  : Scale
  disp   : Word64
  riprel : Bool
deriving DecidableEq, Repr

end Machine

/-- R81, R82: the components of a memory operand, with the displacement scale N of its form. -/
def MemOp.address (n : Nat) : MemOp → Machine.Address
  | .base b disp => { base := some b, index := none, scale := .s1, disp := disp.value n, riprel := false }
  | .ripRel d => { base := none, index := none, scale := .s1, disp := d.signExtend 64, riprel := true }
  | .sib scale index b disp =>
    { base := some b, index := index, scale := scale, disp := disp.value n, riprel := false }
  | .sibNoBase scale index d =>
    { base := none, index := index, scale := scale, disp := d.signExtend 64, riprel := false }

namespace Machine

/-- R54: `b`, the base, or the address of the next instruction for a rip-relative operand. -/
def baseValue (m : Address) (len : Nat) (s : State) : Word64 :=
  if m.riprel then s.rip + BitVec.ofNat 64 len
  else match m.base with
    | some b => s.x.get b
    | none => 0

/-- R54: `ix`, the scaled index. -/
def indexValue (m : Address) (s : State) : Word64 :=
  match m.index with
  | some i => s.x.get i * BitVec.ofNat 64 m.scale.factor
  | none => 0

/-- R54, R55: the effective address; with the 67 byte only the low 32 bits of the sum, zero-extended. -/
def effectiveAddress (asz32 : Bool) (m : Address) (len : Nat) (s : State) : Word64 :=
  let ea := baseValue m len s + indexValue m s + m.disp
  if asz32 then (ea.setWidth 32).setWidth 64 else ea

/-- R56: the base an override adds; only FS and GS have one in 64-bit mode (R33). -/
def segBase (seg : Option SegOverride) (s : State) : Word64 :=
  match seg with
  | some .fs => s.fsBase
  | some .gs => s.gsBase
  | some .es => 0
  | some .cs => 0
  | some .ss => 0
  | some .ds => 0
  | none => 0

/-- R56: the linear address of a memory operand of an instruction of `len` bytes. -/
def linearAddress (p : Prefixes) (n : Nat) (m : MemOp) (len : Nat) (s : State) : Word64 :=
  effectiveAddress p.asz32 (m.address n) len s + segBase p.seg s

/-- R56, R164: the segment is SS when the base register is RSP or RBP and no FS or GS override is present. -/
def inStackSegment (p : Prefixes) (m : MemOp) : Bool :=
  p.seg != some .fs && p.seg != some .gs &&
    ((m.address 1).base == some 4 || (m.address 1).base == some 5)

/-- R51: the second source, the low `w` bits of a vector register or one read of `w / 8` bytes. A memory operand
outside 64-bit mode is refused (log entry 9). `toVec` places the form's register numbers among the 32. -/
def readSrc2 {nreg : Nat} (w n : Nat) (toVec : Fin nreg → Fin 32) (p : Prefixes) (src2 : Src2 nreg) (len : Nat)
    (s : State) : Result (BitVec w) :=
  match src2 with
  | .reg r => .next (s.view w (toVec r))
  | .mem m =>
    if s.mode = .bits64 then memRead w (inStackSegment p m) (linearAddress p n m len s) s
    else .refused .addressingOutside64BitMode

/-- SEL (R11): the low bits of imm8 that name one of the `vl / w` blocks: imm8[0] of two, imm8[1:0] of four. -/
def sel (vl w : Nat) (imm8 : Byte) : Nat := imm8.toNat % (vl / w)

/-- INSERT (R12): bits `w*i+w-1 : w*i` of `src1` replaced by `src2`. -/
def insertBlock {vl w : Nat} (src1 : BitVec vl) (src2 : BitVec w) (i : Nat) : BitVec vl :=
  let block := (BitVec.allOnes w).setWidth vl <<< (w * i)
  (src1 &&& ~~~ block) ||| (src2.setWidth vl <<< (w * i))

/-- The FOR loop of the EVEX Operation blocks over elements 0 to `n - 1` (R10, R13): an element whose mask bit is on
is taken from `t`; another one is left as it is under merging and set to 0 under zeroing. -/
def maskedLoop {vl : Nat} (es : Nat) (old t : BitVec vl) (m : Option Opmask) (z : Bool) : Nat → BitVec vl
  | 0 => old
  | j + 1 =>
    let dest := maskedLoop es old t m z j
    if m.all (·.getLsbD j) then insertBlock dest (t.extractLsb' (j * es) es) j
    else if z then insertBlock dest (0 : BitVec es) j
    else dest

/-- MASKED (R13): the loop over all KL = VL / ES elements. `m = none` is no writemask. -/
def masked {vl : Nat} (es : Nat) (old t : BitVec vl) (m : Option Opmask) (z : Bool) : BitVec vl :=
  maskedLoop es old t m z (vl / es)

/-- A VEX register number among the 32 vector registers (R20, R79). -/
def vexReg (n : Fin 16) : Fin 32 := n.castLE (by decide)

/-- What the six EVEX forms share (R120 to R123, R140, R141), with VL, the block width W, the element size ES, the
displacement scale N and the CPUID flags of the form: check, read both sources and the old destination, insert,
mask, write the whole register, advance. -/
def evexInsert (vl w es n : Nat) (needs : List Feature) (a : EvexArgs) (s : State) : Result State :=
  (checkEvex needs a.kn a.z s).andThen fun _ =>
  (readSrc2 w n id a.pre a.src2 a.len s).andThen fun src2 =>
    let t := insertBlock (s.view vl a.s1) src2 (sel vl w a.imm8)
    let r := masked es (s.view vl a.d) t (s.writemask a.kn) a.z
    .next ((s.writeVec a.d r).advance a.len)

end Machine

end Sys2Proof
end

