-- ==== Sys2Proof/Machine/EvexInsert128.lean ====
section
/-! DEFINITION. VINSERTF32X4 and VINSERTF64X2 (`spec/41_vinsertf32x4_vinsertf64x2.md`): the values of VL, W, ES and N
are those of `spec/30_encoding.md` R77, the flags those of `spec/10_state.md` R32. -/

namespace Sys2Proof.Machine

/-- R120: VINSERTF32X4 ymm1 {k1}{z}, ymm2, xmm3/m128, imm8. -/
def execVinsertf32x4Ymm (a : EvexArgs) (s : State) : Result State :=
  evexInsert 256 128 32 16 [.avx512vl, .avx512f] a s

/-- R121: VINSERTF32X4 zmm1 {k1}{z}, zmm2, xmm3/m128, imm8. -/
def execVinsertf32x4Zmm (a : EvexArgs) (s : State) : Result State :=
  evexInsert 512 128 32 16 [.avx512f] a s

/-- R122: VINSERTF64X2 ymm1 {k1}{z}, ymm2, xmm3/m128, imm8. -/
def execVinsertf64x2Ymm (a : EvexArgs) (s : State) : Result State :=
  evexInsert 256 128 64 16 [.avx512vl, .avx512dq] a s

/-- R123: VINSERTF64X2 zmm1 {k1}{z}, zmm2, xmm3/m128, imm8. -/
def execVinsertf64x2Zmm (a : EvexArgs) (s : State) : Result State :=
  evexInsert 512 128 64 16 [.avx512dq] a s

end Sys2Proof.Machine
end

