-- ==== Sys2Proof/Machine/EvexInsert256.lean ====
section
/-! DEFINITION. VINSERTF32X8 and VINSERTF64X4 (`spec/42_vinsertf32x8_vinsertf64x4.md`): the values of VL, W, ES and N
are those of `spec/30_encoding.md` R77, the flags those of `spec/10_state.md` R32. -/

namespace Sys2Proof.Machine

/-- R140: VINSERTF32X8 zmm1 {k1}{z}, zmm2, ymm3/m256, imm8. -/
def execVinsertf32x8 (a : EvexArgs) (s : State) : Result State :=
  evexInsert 512 256 32 32 [.avx512dq] a s

/-- R141: VINSERTF64X4 zmm1 {k1}{z}, zmm2, ymm3/m256, imm8. -/
def execVinsertf64x4 (a : EvexArgs) (s : State) : Result State :=
  evexInsert 512 256 64 32 [.avx512f] a s

end Sys2Proof.Machine
end

