-- ==== Sys2Proof/Machine/VexInsert128.lean ====
section
/-! DEFINITION. VINSERTF128 (`spec/40_vinsertf128.md`). -/

namespace Sys2Proof.Machine

/-- R110: VL = 256, W = 128, no mask, N = 1 (R88), flag AVX. Bits 511:256 of the destination become zero (R112, D4,
log entry 8). -/
def execVinsertf128 (a : VexArgs) (s : State) : Result State :=
  (checkForm false [.avx] s).andThen fun _ =>
  (readSrc2 128 1 vexReg a.pre a.src2 a.len s).andThen fun src2 =>
    let t := insertBlock (s.view 256 (vexReg a.s1)) src2 (sel 256 128 a.imm8)
    .next ((s.writeVec (vexReg a.d) t).advance a.len)

end Sys2Proof.Machine
end

