-- ==== Sys2Proof/Machine/Dispatch.lean ====
section
/-! DEFINITION. One arm per constructor of Instr, each a direct call of its meaning. -/

namespace Sys2Proof.Machine

def exec (i : Instr) (s : State) : Host.Outcome State Fault Refusal :=
  match i with
  | .vinsertf128 a => Sys2Proof.Machine.execVinsertf128 a s
  | .vinsertf32x4Ymm a => Sys2Proof.Machine.execVinsertf32x4Ymm a s
  | .vinsertf32x4Zmm a => Sys2Proof.Machine.execVinsertf32x4Zmm a s
  | .vinsertf64x2Ymm a => Sys2Proof.Machine.execVinsertf64x2Ymm a s
  | .vinsertf64x2Zmm a => Sys2Proof.Machine.execVinsertf64x2Zmm a s
  | .vinsertf32x8 a => Sys2Proof.Machine.execVinsertf32x8 a s
  | .vinsertf64x4 a => Sys2Proof.Machine.execVinsertf64x4 a s

end Sys2Proof.Machine
end

