-- ==== Sys2Proof/Machine/Step.lean ====
section
/-! DEFINITION. One step: "a step is decode (`30_encoding.md` rule R96), the checks of `60_exceptions.md` rule R168,
the form's rule, and the `rip` advance" (`spec/70_reset_and_hazards.md` R195). The checks, the rule and the advance
are the meaning's. -/

namespace Sys2Proof.Machine

/-- A launch the model refuses does not step (R191, R28). An encoding of R91 raises #UD. -/
def step (s : State) : Host.Outcome State Fault Refusal :=
  match s.launchRefusal with
  | some why => .refused why
  | none =>
    match decode s.fetch with
    | .instr i _ => exec i s
    | .invalidOpcode => raise .invalidOpcode s
    | .refused why => refuseBytes s.fetch why

/-- `s` with the instruction whose first `nbits` bits are `w`, numbered as the opcode table numbers them and every
later bit 0, stored at `rip` and launched as the whole program (R194, log entry 20). -/
def State.withFetchWord (s : State) (nbits w : Nat) : State :=
  { s with
    mem := s.mem.writeBytes s.rip.toNat (tableBytes nbits w)
    text := { base := s.rip.toNat, size := tableLen nbits w }
    running := false
    wrapped := false }

end Sys2Proof.Machine
end

