-- ==== Sys2Proof/Safety.lean ====
section
/-! DEFINITION. The terms statements are made of: the opcode table's columns as the spec prints them, the operands of
an instruction, the conditions under which it completes, the invariant of the machine, and the end of a run. They are
written from the spec beside the meanings, not from them. -/

namespace Sys2Proof

/-! ### The opcode table's columns (`spec/30_encoding.md` R77, R87, R88, R90; `spec/10_state.md` R32) -/

/-- VL, W (the inserted block) and N of a row, whether it is EVEX-encoded, and the CPUID flags it names. -/
structure Row where
  evex  : Bool
  vl    : Nat
  w     : Nat
  n     : Nat
  needs : List Feature
deriving DecidableEq, Repr

def Instr.row : Instr → Row
  | .vinsertf128 _    => { evex := false, vl := 256, w := 128, n := 1,  needs := [.avx] }
  | .vinsertf32x4Ymm _ => { evex := true, vl := 256, w := 128, n := 16, needs := [.avx512vl, .avx512f] }
  | .vinsertf32x4Zmm _ => { evex := true, vl := 512, w := 128, n := 16, needs := [.avx512f] }
  | .vinsertf64x2Ymm _ => { evex := true, vl := 256, w := 128, n := 16, needs := [.avx512vl, .avx512dq] }
  | .vinsertf64x2Zmm _ => { evex := true, vl := 512, w := 128, n := 16, needs := [.avx512dq] }
  | .vinsertf32x8 _    => { evex := true, vl := 512, w := 256, n := 32, needs := [.avx512dq] }
  | .vinsertf64x4 _    => { evex := true, vl := 512, w := 256, n := 32, needs := [.avx512f] }

/-- KL: how many mask bits a form reads (R13, R77); none for the VEX form. -/
def Instr.kl : Instr → Nat
  | .vinsertf128 _ => 0
  | .vinsertf32x4Ymm _ => 8
  | .vinsertf32x4Zmm _ => 16
  | .vinsertf64x2Ymm _ => 4
  | .vinsertf64x2Zmm _ => 8
  | .vinsertf32x8 _ => 16
  | .vinsertf64x4 _ => 8

/-! ### The operands of an instruction (R70) -/

/-- R90's columns `mask` and `match`: a byte string B, from the C4 or 62 byte on, selects the row when
B AND mask = match. -/
def Instr.rowMask (i : Instr) : List Byte :=
  if i.row.evex then [0xFF, 0x0F, 0x87, 0x70, 0xFF] else [0xFF, 0x1F, 0x87, 0xFF]

def Instr.rowMatch : Instr → List Byte
  | .vinsertf128 _ => [0xC4, 0x03, 0x05, 0x18]
  | .vinsertf32x4Ymm _ => [0x62, 0x03, 0x05, 0x20, 0x18]
  | .vinsertf32x4Zmm _ => [0x62, 0x03, 0x05, 0x40, 0x18]
  | .vinsertf64x2Ymm _ => [0x62, 0x03, 0x85, 0x20, 0x18]
  | .vinsertf64x2Zmm _ => [0x62, 0x03, 0x85, 0x40, 0x18]
  | .vinsertf32x8 _ => [0x62, 0x03, 0x05, 0x40, 0x1A]
  | .vinsertf64x4 _ => [0x62, 0x03, 0x85, 0x40, 0x1A]

/-- The operands of any form: the VEX form's register numbers stand among the 32, its mask field is 0 and its
zeroing bit 0 (R70). -/
def VexArgs.toEvex (a : VexArgs) : EvexArgs :=
  { pre := a.pre
    d := a.d.castLE (by decide)
    s1 := a.s1.castLE (by decide)
    src2 := match a.src2 with
      | .reg n => .reg (n.castLE (by decide))
      | .mem m => .mem m
    imm8 := a.imm8
    kn := 0
    z := false }

def Instr.args : Instr → EvexArgs
  | .vinsertf128 a => a.toEvex
  | .vinsertf32x4Ymm a => a
  | .vinsertf32x4Zmm a => a
  | .vinsertf64x2Ymm a => a
  | .vinsertf64x2Zmm a => a
  | .vinsertf32x8 a => a
  | .vinsertf64x4 a => a

/-- The same instruction with another immediate. -/
def Instr.withImm (imm8 : Byte) : Instr → Instr
  | .vinsertf128 a => .vinsertf128 { a with imm8 := imm8 }
  | .vinsertf32x4Ymm a => .vinsertf32x4Ymm { a with imm8 := imm8 }
  | .vinsertf32x4Zmm a => .vinsertf32x4Zmm { a with imm8 := imm8 }
  | .vinsertf64x2Ymm a => .vinsertf64x2Ymm { a with imm8 := imm8 }
  | .vinsertf64x2Zmm a => .vinsertf64x2Zmm { a with imm8 := imm8 }
  | .vinsertf32x8 a => .vinsertf32x8 { a with imm8 := imm8 }
  | .vinsertf64x4 a => .vinsertf64x4 { a with imm8 := imm8 }

/-- The memory operand, if the second source is one. -/
def Instr.mem? (i : Instr) : Option MemOp :=
  match i.args.src2 with
  | .reg _ => none
  | .mem m => some m

/-- The base register a memory operand names (R53). -/
def MemOp.baseReg : MemOp → Option (Fin 16)
  | .base b _ => some b
  | .ripRel _ => none
  | .sib _ _ b _ => some b
  | .sibNoBase _ _ _ => none

/-- R82, R88: the displacement as an integer, a disp8 multiplied by N. -/
def Disp.int (n : Nat) : Disp → Int
  | .absent => 0
  | .disp8 d => d.toInt * n
  | .disp32 d => d.toInt

/-- R81: ss = 00, 01, 10, 11 multiply the index by 1, 2, 4, 8. -/
def Scale.multiplier : Scale → Int
  | .s1 => 1
  | .s2 => 2
  | .s4 => 4
  | .s8 => 8

/-- R54 in integers: base, or the address of the next instruction, plus scaled index plus displacement, before any
reduction. -/
def MemOp.sum (n len : Nat) (s : Machine.State) : MemOp → Int
  | .base b disp => (s.x.get b).toNat + disp.int n
  | .ripRel d => s.rip.toNat + len + d.toInt
  | .sib scale (some j) b disp => (s.x.get b).toNat + (s.x.get j).toNat * scale.multiplier + disp.int n
  | .sib _ none b disp => (s.x.get b).toNat + disp.int n
  | .sibNoBase scale (some j) d => (s.x.get j).toNat * scale.multiplier + d.toInt
  | .sibNoBase _ none d => d.toInt

/-- The linear address of the memory operand `m` of `i` (R54, R56), with N of the instruction's row (R88). -/
def Instr.linear (i : Instr) (m : MemOp) (s : Machine.State) : Word64 :=
  Machine.linearAddress i.args.pre i.row.n m i.len s

/-- `bs`, which begin with the legacy bytes of `i`, go on with bytes that select the row of `i` (R90). -/
def Instr.selectedBy (i : Instr) (bs : List Byte) : Bool :=
  List.zipWith (· &&& ·) (bs.drop i.args.pre.len) i.rowMask == i.rowMatch

/-! ### All the encodings of an instruction (R71, R92, log entry 22) -/

/-- The accepted legacy bytes in either order: the segment override first, or the 67 byte first. -/
def Prefixes.bytesIn (reversed : Bool) (p : Prefixes) : List Byte := if reversed then p.bytes.reverse else p.bytes

/-- A byte of R71 that makes a VEX or EVEX instruction raise #UD: LOCK, 66, F2, F3, REX. -/
def ForbiddenLegacy (b : Byte) : Prop :=
  b = 0xF0 ∨ b = 0x66 ∨ b = 0xF2 ∨ b = 0xF3 ∨ (0x40 ≤ b.toNat ∧ b.toNat ≤ 0x4F)

/-- A legacy byte R71 accepts. -/
def AcceptedLegacy (b : Byte) : Prop := b = 0x67 ∨ ∃ g : SegOverride, b = g.byte

/-- R92: the bits of the byte after C4 or 62 that `i` ignores, X in bit 6 and B in bit 5. X: of a register source in
the VEX form, and of a memory source without SIB byte. B: of a rip-relative operand and of a SIB byte without base. -/
def Instr.ignoredBits (i : Instr) : Byte :=
  match i.args.src2 with
  | .reg _ => if i.row.evex then 0 else 0x40
  | .mem (.base _ _) => 0x40
  | .mem (.ripRel _) => 0x60
  | .mem (.sib _ _ _ _) => 0
  | .mem (.sibNoBase _ _ _) => 0x20

/-- An encoding of `i`: its bytes with the legacy bytes in either order and the ignored bits turned where `turn` has a
1. -/
def Instr.encodingWith (reversed : Bool) (turn : Byte) (i : Instr) : List Byte :=
  i.args.pre.bytesIn reversed ++
    match (encode i).drop i.args.pre.len with
    | escape :: b :: rest => escape :: (b ^^^ (turn &&& i.ignoredBits)) :: rest
    | bs => bs

/-- The bytes a memory operand has (R51). -/
def Instr.width (i : Instr) : Nat := i.row.w / 8

namespace Machine

/-! ### When an instruction completes -/

/-- None of the #UD conditions of R161 that the state decides: P_osxsave, P_xcr0_avx, P_xcr0_avx512 and P_cpuid of
R191, a mode that recognises the encoding, and no zeroing without a mask (R84). -/
structure State.Recognises (s : State) (i : Instr) : Prop where
  mode    : s.mode ≠ .realAddress ∧ s.mode ≠ .virtual8086
  cpuid   : ∀ f ∈ i.row.needs, s.cfg.has f = true
  osxsave : s.cr4.getLsbD 18 = true
  avx     : s.xcr0.getLsbD 1 = true ∧ s.xcr0.getLsbD 2 = true
  avx512  : i.row.evex = true → s.xcr0.getLsbD 5 = true ∧ s.xcr0.getLsbD 6 = true ∧ s.xcr0.getLsbD 7 = true
  mask    : i.args.kn = 0 → i.args.z = false

/-- Neither #UD (R161) nor #NM (R162): P_ts_clear of R191 besides. -/
structure State.Enables (s : State) (i : Instr) : Prop where
  recognised : s.Recognises i
  ts         : s.cr0.getLsbD 3 = false

/-- Alignment checking is in force (R6, R31). -/
def State.AlignmentChecking (s : State) : Prop :=
  s.cr0.getLsbD 18 = true ∧ s.rflags.getLsbD 18 = true ∧ s.cpl = 3

/-- Byte `j` of the program may be fetched, for every `j`: P_text of R191, over the whole text from S to E (R194). -/
def State.ProgramText (s : State) : Prop := ∀ j < s.text.size, s.fetchable (s.text.base + j) = true

/-- What a launch must meet for `step` not to refuse it: P_mode64, P_no_ac and P_text of R191, no wrap of `rip` before
(R28), an `rip` inside the program, and one at its start S unless the run has begun (R194). -/
structure State.Steps (s : State) : Prop where
  mode64 : s.mode = .bits64
  noAc   : ¬s.AlignmentChecking
  noWrap : s.wrapped = false
  text   : s.ProgramText
  inText : s.text.base ≤ s.rip.toNat ∧ s.rip.toNat < s.text.base + s.text.size
  start  : s.running = false → s.rip.toNat = s.text.base

/-- A read of `n` bytes at `a` is admitted (R50, R57), alignment checking not in force (R58, P_no_ac of R191). -/
structure State.Admits (s : State) (a : Word64) (n : Nat) : Prop where
  mode      : s.mode = .bits64
  noWrap    : a.toNat + n ≤ 2 ^ 64
  canonical : ∀ j < n, s.cfg.law.canonical (BitVec.ofNat 64 (a.toNat + j)) = true
  readable  : ∀ j < n, s.byteReadable (a.toNat + j) = true
  noAc      : ¬s.AlignmentChecking

/-- The conditions on the state and the operands alone under which `i` completes: the form is enabled and its memory
operand, if it has one, is admitted. -/
def State.Ready (s : State) (i : Instr) : Prop :=
  s.Enables i ∧ ∀ m, i.mem? = some m → s.Admits (i.linear m s) i.width

/-- Bit `q` of SRC2 (R51, R52): of the register, or of the little-endian bytes at the operand's linear address. -/
def State.src2Bit (s : State) (i : Instr) (q : Nat) : Bool :=
  match i.args.src2 with
  | .reg n => (s.v.get n).getLsbD q
  | .mem m => (s.mem.readByte ((i.linear m s).toNat + q / 8)).getLsbD (q % 8)

/-- `s` with register `d` and `rip` as an instruction `i` that computes `r` leaves them: `v[d] <- r`,
`rip <- rip + len` with the notes on the run (R28, log entry 18), and every other field as it was. -/
def State.after (s : State) (i : Instr) (r : VecReg) : State :=
  { s with
    v := s.v.set i.args.d r
    rip := s.rip + BitVec.ofNat 64 i.len
    running := true
    wrapped := s.wrapped || decide (2 ^ 64 ≤ s.rip.toNat + i.len) }

/-- An outcome with its next state changed by `g`. -/
def mapNext (g : State → State) (o : Host.Outcome State Fault Refusal) : Host.Outcome State Fault Refusal :=
  match o with
  | .next t => .next (g t)
  | .fault f => .fault f
  | .refused r => .refused r

/-- Bit `p` of the destination after an EVEX form with block number `blk`: zero at VL and above; else, where the
element is not masked off, the bit of SRC2 inside block `blk` and the bit of SRC1 outside it; else zero under zeroing
and the old bit under merging (R12, R13, R14). -/
def State.insertedBit (s : State) (i : Instr) (es blk p : Nat) : Bool :=
  if i.row.vl ≤ p then false
  else if i.args.kn = 0 ∨ (s.k.get i.args.kn).getLsbD (p / es) = true then
    if p / i.row.w = blk then s.src2Bit i (p % i.row.w) else (s.v.get i.args.s1).getLsbD p
  else if i.args.z then false
  else (s.v.get i.args.d).getLsbD p

/-! ### The invariant of the machine -/

/-- What every step keeps: memory has its canonical form, and no register holds a bit the implementation does not
have (MAXVL, NVEC, KW of R6). -/
structure State.Inv (s : State) : Prop where
  mem    : s.mem.wf = true
  upper  : ∀ (n : Fin 32) (p : Nat), s.cfg.maxvl ≤ p → (s.v.get n).getLsbD p = false
  absent : ∀ n : Fin 32, s.cfg.nvec ≤ n.val → s.v.get n = 0
  opmask : ∀ (n : Fin 8) (p : Nat), s.cfg.kw.bits ≤ p → (s.k.get n).getLsbD p = false

/-- The launch premises of R191 that name no form: P_text is that of the program `s` holds, "at the launch `rip`", and
R194's start of a run, `rip = S`, by which no instruction has run yet. -/
structure State.LaunchPremises (s : State) : Prop where
  mode64     : s.mode = .bits64
  osxsave    : s.osxsave = true
  xcr0Avx    : s.avxEnabled = true
  xcr0Avx512 : s.avx512Enabled = true
  tsClear    : s.ts = false
  noAc       : s.acEnabled = false
  noWrap     : s.wrapped = false
  text       : s.ProgramText
  atStart    : s.rip.toNat = s.text.base
  notBegun   : s.running = false

/-! ### A run (`spec/70_reset_and_hazards.md` R194) -/

/-- How a run of at most a given number of steps ends. -/
inductive RunEnd where
  | final (s : State)
  | faulted (f : Fault)
  | refused (r : Refusal)
  | unfinished (s : State)
deriving DecidableEq, Repr

/-- E, the end of the program (R194, exclusive), as `rip` reaches it. -/
def State.textEnd (s : State) : Word64 := BitVec.ofNat 64 (s.text.base + s.text.size)

/-- R194: the rest of a run of the program `s` holds, from `s` on. It "ends normally, in a final state, when `rip = E`
after an instruction completes". The definition is the model's own (D22, log entry 21). It ends so whatever address E
is, a non-canonical one among them: DESIGN CHOICE, log entry 24. -/
def runTo : Nat → State → RunEnd
  | 0, s => .unfinished s
  | k + 1, s =>
    match step s with
    | .next t => if t.rip = t.textEnd then .final t else runTo k t
    | .fault f => .faulted f
    | .refused r => .refused r

/-- `s` as a launch: no instruction of its run has completed. -/
def State.launched (s : State) : State := { s with running := false, wrapped := false }

/-- R194: the run of the program `s` holds, launched in `s`. It "starts with `rip = S`": `step` refuses the launch
elsewhere. -/
def runProgram (k : Nat) (s : State) : RunEnd := runTo k s.launched

end Machine

end Sys2Proof
end

