-- ==== Sys2Proof/Certificates/Slice0/Obligations.lean ====
section
/-! DEFINITION. The statements for the provers, from the spec's numbered rules (OBLIGATIONS.json says which are the
spec's own words and which rest on its general knowledge, on its decisions D1 to D28 or on the model's log). -/

open Sys2Proof Sys2Proof.Machine

/-! ### Encoding -/

/-- The decoder gives back every instruction that has an encoding, with every operand at every value, and leaves the
bytes after it (`spec/30_encoding.md` sections 3 to 10). -/
def Obligations.DecodeEncodeAgree : Prop :=
  ∀ (i : Instr) (rest : List Byte), i.wellFormed = true → decode (encode i ++ rest) = .instr i rest

/-- The decoder reads an instruction from exactly its encodings: the accepted legacy bytes in either order
(`spec/30_encoding.md` section 3), every ignored bit either way (section 8: VEX.X with a register source, X of a memory
source without SIB byte, B of a rip-relative or base-less operand), and all other bits as the encoder writes them. -/
def Obligations.DecodesExactlyItsEncodings : Prop :=
  ∀ (bs rest : List Byte) (i : Instr), decode bs = .instr i rest ↔
    i.wellFormed = true ∧ ∃ (reversed : Bool) (turn : Byte), bs = i.encodingWith reversed turn ++ rest

/-- A 67 byte before a segment override is what the override before the 67 byte is, whatever follows
(`spec/30_encoding.md` section 3, log entry 22). -/
def Obligations.LegacyByteOrderDoesNotMatter : Prop :=
  ∀ (g : SegOverride) (rest : List Byte), decode (0x67 :: g.byte :: rest) = decode (g.byte :: 0x67 :: rest)

/-- Whatever bytes the decoder reads an instruction from, the instruction is well formed and has used `len` bytes of
them, at most 15 (`spec/30_encoding.md` section 3). -/
def Obligations.DecodedInstructionUsesLenBytes : Prop :=
  ∀ (bs rest : List Byte) (i : Instr), decode bs = .instr i rest →
    i.wellFormed = true ∧ i.len ≤ 15 ∧ ∃ used, bs = used ++ rest ∧ used.length = i.len

/-- Whatever bytes the decoder reads an instruction from, the bytes after the legacy bytes select that instruction's row
by the match and mask columns of the opcode table (`spec/30_encoding.md` section 7; the columns are derived there). -/
def Obligations.DecodedInstructionSelectsItsRow : Prop :=
  ∀ (bs rest : List Byte) (i : Instr), decode bs = .instr i rest → i.selectedBy bs = true

/-- Encodings of `spec/95_test_vectors.md` section 3.1 are the instructions the spec says: one of each of the seven rows
with a register source (E1, E11, E12, E14, E15, E16, E17), and one of each shape of a memory operand, with each scale
that shows (E6: 8, E21: 4, E31: 2, E8: no index, E20, E22). -/
def Obligations.SpecEncodingsDecode : Prop :=
  decode [0xC4, 0xE3, 0x75, 0x18, 0xC2, 0x01] = .instr (.vinsertf128
    { pre := { seg := none, asz32 := false }, d := 0, s1 := 1, src2 := .reg 2, imm8 := 1 }) [] ∧
  decode [0x62, 0xF3, 0x75, 0x28, 0x18, 0xC2, 0x01] = .instr (.vinsertf32x4Ymm
    { pre := { seg := none, asz32 := false }, d := 0, s1 := 1, src2 := .reg 2, imm8 := 1, kn := 0, z := false }) [] ∧
  decode [0x62, 0xF3, 0x75, 0x49, 0x18, 0xC2, 0x02] = .instr (.vinsertf32x4Zmm
    { pre := { seg := none, asz32 := false }, d := 0, s1 := 1, src2 := .reg 2, imm8 := 2, kn := 1, z := false }) [] ∧
  decode [0x62, 0xF3, 0xCD, 0x2A, 0x18, 0xEF, 0x01] = .instr (.vinsertf64x2Ymm
    { pre := { seg := none, asz32 := false }, d := 5, s1 := 6, src2 := .reg 7, imm8 := 1, kn := 2, z := false }) [] ∧
  decode [0x62, 0x03, 0x8D, 0xC7, 0x18, 0xFD, 0x03] = .instr (.vinsertf64x2Zmm
    { pre := { seg := none, asz32 := false }, d := 31, s1 := 30, src2 := .reg 29, imm8 := 3, kn := 7, z := true }) [] ∧
  decode [0x62, 0xA3, 0x75, 0x40, 0x1A, 0xC2, 0x01] = .instr (.vinsertf32x8
    { pre := { seg := none, asz32 := false }, d := 16, s1 := 17, src2 := .reg 18, imm8 := 1, kn := 0, z := false }) [] ∧
  decode [0x62, 0xF3, 0xF5, 0xC9, 0x1A, 0xC2, 0x01] = .instr (.vinsertf64x4
    { pre := { seg := none, asz32 := false }, d := 0, s1 := 1, src2 := .reg 2, imm8 := 1, kn := 1, z := true }) [] ∧
  decode [0xC4, 0x03, 0x25, 0x18, 0x94, 0xEC, 0x00, 0x10, 0x00, 0x00, 0xFF] = .instr (.vinsertf128
    { pre := { seg := none, asz32 := false }, d := 10, s1 := 11, src2 := .mem (.sib .s8 (some 13) 12 (.disp32 0x1000)),
      imm8 := 0xFF }) [] ∧
  decode [0x62, 0x33, 0x35, 0x4B, 0x1A, 0x44, 0x8B, 0x02, 0x01] = .instr (.vinsertf32x8
    { pre := { seg := none, asz32 := false }, d := 8, s1 := 9, src2 := .mem (.sib .s4 (some 9) 3 (.disp8 2)), imm8 := 1,
      kn := 3, z := false }) [] ∧
  decode [0x62, 0xB3, 0x75, 0x48, 0x18, 0x04, 0x60, 0x01] = .instr (.vinsertf32x4Zmm
    { pre := { seg := none, asz32 := false }, d := 0, s1 := 1, src2 := .mem (.sib .s2 (some 12) 0 .absent), imm8 := 1,
      kn := 0, z := false }) [] ∧
  decode [0xC4, 0xE3, 0x75, 0x18, 0x04, 0x25, 0x00, 0x10, 0x00, 0x00, 0x01] = .instr (.vinsertf128
    { pre := { seg := none, asz32 := false }, d := 0, s1 := 1, src2 := .mem (.sibNoBase .s1 none 0x1000),
      imm8 := 1 }) [] ∧
  decode [0x62, 0xF3, 0xF5, 0x48, 0x1A, 0x40, 0xFF, 0x00] = .instr (.vinsertf64x4
    { pre := { seg := none, asz32 := false }, d := 0, s1 := 1, src2 := .mem (.base 0 (.disp8 0xFF)), imm8 := 0,
      kn := 0, z := false }) [] ∧
  decode [0x62, 0xF3, 0xED, 0x28, 0x18, 0x0D, 0xF0, 0xFF, 0xFF, 0xFF, 0x00] = .instr (.vinsertf64x2Ymm
    { pre := { seg := none, asz32 := false }, d := 1, s1 := 2, src2 := .mem (.ripRel 0xFFFFFFF0), imm8 := 0,
      kn := 0, z := false }) []

/-- `spec/40_vinsertf128.md` R111: VINSERTF128's encoding with VEX.L = 0 in place of 1, every other field as R74 and
R79 have it, behind any accepted legacy bytes in either order and before any bytes, raises #UD at decode: `step` ends
in that fault, which holds no state, so none is changed. -/
def Obligations.VexLengthZeroRaisesInvalidOpcode : Prop :=
  ∀ (p : Prefixes) (reversed : Bool) (b1 b2 : Byte) (rest : List Byte),
    b1.extractLsb' 0 5 = 3 → b2.extractLsb' 0 2 = 1 → b2.getLsbD 7 = false → b2.getLsbD 2 = false →
    decode (p.bytesIn reversed ++ 0xC4 :: b1 :: b2 :: 0x18 :: rest) = .invalidOpcode ∧
    ∀ s : State, s.Steps → s.fetch = p.bytesIn reversed ++ 0xC4 :: b1 :: b2 :: 0x18 :: rest →
      step s = .fault (.invalidOpcode s.rip)

/-- `spec/30_encoding.md` section 8 (general knowledge there, D20): behind any accepted legacy bytes in either order,
an EVEX encoding raises #UD if a reserved bit of P0 or P1 is wrong; and with those bits, the map, pp and opcode of the
family right, if no row of R77 has its W and L'L, if b = 1, or if z = 1 with aaa = 000. -/
def Obligations.ReservedEvexEncodingsRaiseInvalidOpcode : Prop :=
  ∀ (p : Prefixes) (reversed : Bool) (p0 p1 p2 op : Byte) (rest : List Byte),
    (p0.extractLsb' 2 2 ≠ 0 ∨ p1.getLsbD 2 = false ∨
      (p0.extractLsb' 0 2 = 3 ∧ p1.extractLsb' 0 2 = 1 ∧ (op = 0x18 ∨ op = 0x1A) ∧
        ((op = 0x18 ∧ (p2.extractLsb' 5 2 = 0 ∨ p2.extractLsb' 5 2 = 3)) ∨
         (op = 0x1A ∧ p2.extractLsb' 5 2 ≠ 2) ∨
         p2.getLsbD 4 = true ∨ (p2.getLsbD 7 = true ∧ p2.extractLsb' 0 3 = 0)))) →
    decode (p.bytesIn reversed ++ 0x62 :: p0 :: p1 :: p2 :: op :: rest) = .invalidOpcode

/-- `spec/30_encoding.md` section 8 and D5: VINSERTF128's encoding with VEX.W = 1, behind any accepted legacy bytes in
either order, is refused by the model. -/
def Obligations.VexWideRefused : Prop :=
  ∀ (p : Prefixes) (reversed : Bool) (b1 b2 : Byte) (rest : List Byte),
    b1.extractLsb' 0 5 = 3 → b2.extractLsb' 0 2 = 1 → b2.getLsbD 2 = true → b2.getLsbD 7 = true →
    decode (p.bytesIn reversed ++ 0xC4 :: b1 :: b2 :: 0x18 :: rest) = .refused .vexW1

/-- `spec/30_encoding.md` section 3 (general knowledge there, D21): a LOCK, 66, F2, F3 or REX byte anywhere before the
VEX or EVEX byte, behind accepted legacy bytes in either order and before any further legacy bytes, raises #UD,
whatever follows. That a byte repeated after it does not refuse is log entry 11. -/
def Obligations.ForbiddenLegacyByteRaisesInvalidOpcode : Prop :=
  ∀ (p : Prefixes) (reversed : Bool) (f : Byte) (more rest : List Byte), ForbiddenLegacy f →
    (∀ b ∈ more, AcceptedLegacy b ∨ ForbiddenLegacy b) →
    decode (p.bytesIn reversed ++ f :: more ++ 0xC4 :: rest) = .invalidOpcode ∧
    decode (p.bytesIn reversed ++ f :: more ++ 0x62 :: rest) = .invalidOpcode

/-- `spec/30_encoding.md` section 3 and D21: behind accepted legacy bytes in either order that hold a segment override,
a second one, the same or another, is refused; behind bytes that hold a 67, a second 67 is. -/
def Obligations.RepeatedLegacyByteRefused : Prop :=
  ∀ (p : Prefixes) (reversed : Bool) (rest : List Byte),
    (p.seg ≠ none → ∀ h : SegOverride,
      decode (p.bytesIn reversed ++ h.byte :: rest) = .refused .repeatedPrefix) ∧
    (p.asz32 = true → decode (p.bytesIn reversed ++ 0x67 :: rest) = .refused .repeatedPrefix)

/-! ### Stepping -/

/-- A step from a state that meets the launch premises (64-bit mode, no alignment checking, no wrap before, a program
all of which may be fetched, with `rip` inside it and, at a launch, at its start) does what the program's bytes from
`rip` on decode to, with nothing around it: `exec` of the instruction, which itself advances `rip` past it
(`spec/70_reset_and_hazards.md`, Agents and host); the #UD fault, for bytes that raise it; and for bytes the decoder
refuses, a refusal of the same name. Where it refuses them because they run out, the step says whether the program
ends or 15 bytes hold no whole instruction (log entries 12, 18). -/
def Obligations.StepRunsDecodedInstruction : Prop :=
  ∀ s : State, s.Steps →
    (∀ (i : Instr) (rest : List Byte), decode s.fetch = .instr i rest → step s = exec i s) ∧
    (decode s.fetch = .invalidOpcode → step s = .fault (.invalidOpcode s.rip)) ∧
    (decode s.fetch = .refused .notThisFamily → step s = .refused .notThisFamily) ∧
    (decode s.fetch = .refused .repeatedPrefix → step s = .refused .repeatedPrefix) ∧
    (decode s.fetch = .refused .vexW1 → step s = .refused .vexW1) ∧
    (decode s.fetch = .refused .truncated →
      step s = .refused (if s.fetch.length < 15 then .programText else .tooLong))

/-- The same from memory: when the bytes at `rip` are any encoding of a well-formed instruction that ends within the
program, `step` is `exec` of that instruction, whatever the bytes after it are. When the program ends after the first
`n` of them, `step` refuses the program text (`spec/70_reset_and_hazards.md`, End of a run; D17, log entry 18). -/
def Obligations.StepRunsPlacedInstruction : Prop :=
  ∀ (s : State) (i : Instr) (reversed : Bool) (turn : Byte), s.Steps → i.wellFormed = true →
    (s.rip.toNat + (i.encodingWith reversed turn).length ≤ s.text.base + s.text.size →
      (∀ (j : Nat) (h : j < (i.encodingWith reversed turn).length),
        s.mem.readByte (s.rip.toNat + j) = (i.encodingWith reversed turn)[j]) →
      step s = exec i s) ∧
    ∀ n < (i.encodingWith reversed turn).length, s.rip.toNat + n = s.text.base + s.text.size →
      (∀ (j : Nat) (h : j < (i.encodingWith reversed turn).length), j < n →
        s.mem.readByte (s.rip.toNat + j) = (i.encodingWith reversed turn)[j]) →
      step s = .refused .programText

/-- D1, D9, D16, D17, D22: `step` refuses by name outside 64-bit mode; under alignment checking; after an instruction
that ended at the top of the address space; where any byte of the program, from its start to its end, may not be
fetched, whatever stands at `rip`; where `rip` is outside the program; and at a launch, where `rip` is inside the program
but not at its start. A run launched anywhere but at the start is refused. The order of the names is the model's. -/
def Obligations.StepRefusesLaunchOutsidePremises : Prop :=
  ∀ s : State,
    (s.mode ≠ .bits64 → step s = .refused .outside64BitMode) ∧
    (s.mode = .bits64 → s.AlignmentChecking → step s = .refused .alignmentChecking) ∧
    (s.mode = .bits64 → ¬s.AlignmentChecking → s.wrapped = true → step s = .refused .programWraps) ∧
    (s.mode = .bits64 → ¬s.AlignmentChecking → s.wrapped = false →
      (∀ j < s.text.size, s.fetchable (s.text.base + j) = false → step s = .refused .programText) ∧
      (s.ProgramText → (s.rip.toNat < s.text.base ∨ s.text.base + s.text.size ≤ s.rip.toNat) →
        step s = .refused .outsideProgram) ∧
      (s.ProgramText → s.text.base < s.rip.toNat → s.rip.toNat < s.text.base + s.text.size → s.running = false →
        step s = .refused .launchNotAtStart)) ∧
    (s.rip.toNat ≠ s.text.base → ∃ r, ∀ k, runProgram (k + 1) s = .refused r)

/-- D16 (`spec/10_state.md`, Instruction pointer and control flow; log entry 18): an instruction that completes advances
`rip` modulo 2^64; if its last byte is at or past address 2^64 - 1, the step after it is refused, whatever stands at the
address `rip` has wrapped to. -/
def Obligations.NoStepAfterWrap : Prop :=
  ∀ (i : Instr) (s t : State), exec i s = .next t →
    t.rip = s.rip + BitVec.ofNat 64 i.len ∧
    (t.wrapped = true ↔ s.wrapped = true ∨ 2 ^ 64 ≤ s.rip.toNat + i.len) ∧
    (2 ^ 64 ≤ s.rip.toNat + i.len → ∃ r, step t = .refused r)

/-! ### What each instruction does -/

/-- VINSERTF128 completes wherever it is ready and inserts SRC2 into the half of SRC1 that imm8[0] names (the
equivalent form of `spec/40_vinsertf128.md`'s first rule). That bits 511:256 become zero is decision D4 (log entry 8);
`rip` advances, and the rest of the state is unchanged but for the model's own notes on the run (log entry 18). -/
def Obligations.Vinsertf128Inserts : Prop :=
  ∀ (a : VexArgs) (s : State), s.Ready (.vinsertf128 a) →
    (Instr.vinsertf128 a).selectedBy (encode (.vinsertf128 a)) = true ∧
    ∃ (src2 : BitVec 128) (ymm : BitVec 256),
      (∀ q < 128, src2.getLsbD q = s.src2Bit (.vinsertf128 a) q) ∧
      (a.imm8.getLsbD 0 = true → ymm = src2 ++ (s.v.get (vexReg a.s1)).extractLsb' 0 128) ∧
      (a.imm8.getLsbD 0 = false → ymm = (s.v.get (vexReg a.s1)).extractLsb' 128 128 ++ src2) ∧
      exec (.vinsertf128 a) s = .next (s.after (.vinsertf128 a) (0#256 ++ ymm))

/-- `spec/41_vinsertf32x4_vinsertf64x2.md` R120: the ymm form of VINSERTF32X4. It has its row's encoding, and wherever
it is ready it inserts, masks, zeroes what lies above VL, advances `rip`, and changes nothing else but the model's own
notes on the run (log entry 18). -/
def Obligations.Vinsertf32x4YmmInserts : Prop :=
  ∀ (a : EvexArgs) (s : State), s.Ready (.vinsertf32x4Ymm a) →
    (Instr.vinsertf32x4Ymm a).selectedBy (encode (.vinsertf32x4Ymm a)) = true ∧
    ∃ r : VecReg, exec (.vinsertf32x4Ymm a) s = .next (s.after (.vinsertf32x4Ymm a) r) ∧
      ∀ p < 512, r.getLsbD p = s.insertedBit (.vinsertf32x4Ymm a) 32 (a.imm8.toNat % 2) p

/-- `spec/41_vinsertf32x4_vinsertf64x2.md` R121: the zmm form of VINSERTF32X4. It has its row's encoding, and wherever
it is ready it inserts, masks, zeroes what lies above VL, advances `rip`, and changes nothing else but the model's own
notes on the run (log entry 18). -/
def Obligations.Vinsertf32x4ZmmInserts : Prop :=
  ∀ (a : EvexArgs) (s : State), s.Ready (.vinsertf32x4Zmm a) →
    (Instr.vinsertf32x4Zmm a).selectedBy (encode (.vinsertf32x4Zmm a)) = true ∧
    ∃ r : VecReg, exec (.vinsertf32x4Zmm a) s = .next (s.after (.vinsertf32x4Zmm a) r) ∧
      ∀ p < 512, r.getLsbD p = s.insertedBit (.vinsertf32x4Zmm a) 32 (a.imm8.toNat % 4) p

/-- `spec/41_vinsertf32x4_vinsertf64x2.md` R122: the ymm form of VINSERTF64X2. It has its row's encoding, and wherever
it is ready it inserts, masks, zeroes what lies above VL, advances `rip`, and changes nothing else but the model's own
notes on the run (log entry 18). -/
def Obligations.Vinsertf64x2YmmInserts : Prop :=
  ∀ (a : EvexArgs) (s : State), s.Ready (.vinsertf64x2Ymm a) →
    (Instr.vinsertf64x2Ymm a).selectedBy (encode (.vinsertf64x2Ymm a)) = true ∧
    ∃ r : VecReg, exec (.vinsertf64x2Ymm a) s = .next (s.after (.vinsertf64x2Ymm a) r) ∧
      ∀ p < 512, r.getLsbD p = s.insertedBit (.vinsertf64x2Ymm a) 64 (a.imm8.toNat % 2) p

/-- `spec/41_vinsertf32x4_vinsertf64x2.md` R123: the zmm form of VINSERTF64X2. It has its row's encoding, and wherever
it is ready it inserts, masks, zeroes what lies above VL, advances `rip`, and changes nothing else but the model's own
notes on the run (log entry 18). -/
def Obligations.Vinsertf64x2ZmmInserts : Prop :=
  ∀ (a : EvexArgs) (s : State), s.Ready (.vinsertf64x2Zmm a) →
    (Instr.vinsertf64x2Zmm a).selectedBy (encode (.vinsertf64x2Zmm a)) = true ∧
    ∃ r : VecReg, exec (.vinsertf64x2Zmm a) s = .next (s.after (.vinsertf64x2Zmm a) r) ∧
      ∀ p < 512, r.getLsbD p = s.insertedBit (.vinsertf64x2Zmm a) 64 (a.imm8.toNat % 4) p

/-- `spec/42_vinsertf32x8_vinsertf64x4.md` R140: VINSERTF32X8. It has its row's encoding, and wherever it is ready it
inserts, masks, zeroes what lies above VL, advances `rip`, and changes nothing else but the model's own notes on the
run (log entry 18). -/
def Obligations.Vinsertf32x8Inserts : Prop :=
  ∀ (a : EvexArgs) (s : State), s.Ready (.vinsertf32x8 a) →
    (Instr.vinsertf32x8 a).selectedBy (encode (.vinsertf32x8 a)) = true ∧
    ∃ r : VecReg, exec (.vinsertf32x8 a) s = .next (s.after (.vinsertf32x8 a) r) ∧
      ∀ p < 512, r.getLsbD p = s.insertedBit (.vinsertf32x8 a) 32 (a.imm8.toNat % 2) p

/-- `spec/42_vinsertf32x8_vinsertf64x4.md` R141: VINSERTF64X4. It has its row's encoding, and wherever it is ready it
inserts, masks, zeroes what lies above VL, advances `rip`, and changes nothing else but the model's own notes on the
run (log entry 18). -/
def Obligations.Vinsertf64x4Inserts : Prop :=
  ∀ (a : EvexArgs) (s : State), s.Ready (.vinsertf64x4 a) →
    (Instr.vinsertf64x4 a).selectedBy (encode (.vinsertf64x4 a)) = true ∧
    ∃ r : VecReg, exec (.vinsertf64x4 a) s = .next (s.after (.vinsertf64x4 a) r) ∧
      ∀ p < 512, r.getLsbD p = s.insertedBit (.vinsertf64x4 a) 64 (a.imm8.toNat % 2) p

/-- A form completes exactly when it is ready: enabled, and its memory operand admitted (`spec/60_exceptions.md`,
the conditions of its first sections; `spec/20_memory.md`, admission of the read; log entries 9 and 16). -/
def Obligations.CompletesExactlyWhenReady : Prop :=
  ∀ (i : Instr) (s : State), (∃ t, exec i s = .next t) ↔ s.Ready i

/-! ### The primitives -/

/-- `spec/00_scope.md` R12: INSERT puts `src2` in block `sel` and leaves every bit outside it, for every bit
position. -/
def Obligations.InsertReplacesOneBlock : Prop :=
  ∀ (vl w sel : Nat) (src1 : BitVec vl) (src2 : BitVec w), w * sel + w ≤ vl →
    (insertBlock src1 src2 sel).extractLsb' (w * sel) w = src2 ∧
    (insertBlock src1 src2 sel).extractLsb' 0 (w * sel) = src1.extractLsb' 0 (w * sel) ∧
    (insertBlock src1 src2 sel).extractLsb' (w * sel + w) (vl - (w * sel + w)) =
      src1.extractLsb' (w * sel + w) (vl - (w * sel + w))

/-- `spec/00_scope.md` R13: MASKED, element by element, for the four admitted (VL, ES, KL) triples; and no mask bit at
KL or above is read. -/
def Obligations.MaskedUpdatesElements : Prop :=
  ∀ vl es kl : Nat,
    (vl, es, kl) = (256, 32, 8) ∨ (vl, es, kl) = (512, 32, 16) ∨ (vl, es, kl) = (256, 64, 4) ∨
      (vl, es, kl) = (512, 64, 8) →
    ∀ (old t : BitVec vl) (m : Option Opmask) (z : Bool),
      (∀ j < kl, (masked es old t m z).extractLsb' (j * es) es =
        if m = none ∨ ∃ k, m = some k ∧ k.getLsbD j = true then t.extractLsb' (j * es) es
        else if z = false then old.extractLsb' (j * es) es
        else 0) ∧
      ∀ k k' : Opmask, (∀ j < kl, k.getLsbD j = k'.getLsbD j) →
        masked es old t (some k) z = masked es old t (some k') z

/-- `spec/41_vinsertf32x4_vinsertf64x2.md` R124: for the four 128-bit EVEX inserts, element j of the destination is
SRC2's when its mask bit is on and it lies in block sel (elements 4 sel to 4 sel + 3 at ES = 32, 2 sel and 2 sel + 1
at ES = 64), SRC1's when its mask bit is on and it lies outside, and kept or zeroed when its mask bit is off. -/
def Obligations.ElementsOfThe128BitInserts : Prop :=
  ∀ (a : EvexArgs) (s t : State) (i : Instr) (es sel : Nat),
    (i = .vinsertf32x4Ymm a ∧ es = 32 ∧ sel = a.imm8.toNat % 2) ∨
    (i = .vinsertf32x4Zmm a ∧ es = 32 ∧ sel = a.imm8.toNat % 4) ∨
    (i = .vinsertf64x2Ymm a ∧ es = 64 ∧ sel = a.imm8.toNat % 2) ∨
    (i = .vinsertf64x2Zmm a ∧ es = 64 ∧ sel = a.imm8.toNat % 4) →
    exec i s = .next t →
    ∀ j < i.row.vl / es,
      let on := a.kn = 0 ∨ (s.k.get a.kn).getLsbD j = true
      let inBlock := (128 / es) * sel ≤ j ∧ j < (128 / es) * sel + 128 / es
      (on → inBlock → ∀ q < es,
        (t.v.get a.d).getLsbD (j * es + q) = s.src2Bit i ((j - (128 / es) * sel) * es + q)) ∧
      (on → ¬inBlock → (t.v.get a.d).extractLsb' (j * es) es = (s.v.get a.s1).extractLsb' (j * es) es) ∧
      (¬on → a.z = true → (t.v.get a.d).extractLsb' (j * es) es = 0) ∧
      (¬on → a.z = false → (t.v.get a.d).extractLsb' (j * es) es = (s.v.get a.d).extractLsb' (j * es) es)

/-- `spec/42_vinsertf32x8_vinsertf64x4.md` R142: for the two 256-bit inserts the block is one half, elements 0 to 7 or
8 to 15 at ES = 32 and 0 to 3 or 4 to 7 at ES = 64, and the mask gates elements independently of it. -/
def Obligations.ElementsOfThe256BitInserts : Prop :=
  ∀ (a : EvexArgs) (s t : State) (i : Instr) (es : Nat),
    (i = .vinsertf32x8 a ∧ es = 32) ∨ (i = .vinsertf64x4 a ∧ es = 64) →
    exec i s = .next t →
    ∀ j < 512 / es,
      let half := 256 / es
      let on := a.kn = 0 ∨ (s.k.get a.kn).getLsbD j = true
      let inBlock := if a.imm8.getLsbD 0 then half ≤ j else j < half
      (on → inBlock → ∀ q < es, (t.v.get a.d).getLsbD (j * es + q) = s.src2Bit i ((j % half) * es + q)) ∧
      (on → ¬inBlock → (t.v.get a.d).extractLsb' (j * es) es = (s.v.get a.s1).extractLsb' (j * es) es) ∧
      (¬on → a.z = true → (t.v.get a.d).extractLsb' (j * es) es = 0) ∧
      (¬on → a.z = false → (t.v.get a.d).extractLsb' (j * es) es = (s.v.get a.d).extractLsb' (j * es) es)

/-- `spec/30_encoding.md` R83: imm8 is the last byte; a ymm form and a 256-bit insert read imm8[0], a zmm form of the
128-bit inserts imm8[1:0]; every other bit is ignored; no value raises an exception that another would not. -/
def Obligations.ImmediateHighBitsIgnored : Prop :=
  ∀ (i : Instr) (s : State) (imm8 : Byte),
    (encode i).getLast? = some i.args.imm8 ∧
    (imm8.getLsbD 0 = i.args.imm8.getLsbD 0 →
      (i.row.vl = 512 → i.row.w = 128 → imm8.getLsbD 1 = i.args.imm8.getLsbD 1) →
      exec (i.withImm imm8) s = exec i s) ∧
    ∀ f : Fault, exec (i.withImm imm8) s = .fault f ↔ exec i s = .fault f

/-! ### Frames -/

/-- `spec/95_test_vectors.md` section 7 item 8: every form, when it completes, changes its destination vector register
and `rip` and nothing else, but for the model's own notes on the run (log entry 18); it stores nothing, so every byte
of memory reads as before. -/
def Obligations.OnlyDestinationAndRipChange : Prop :=
  ∀ (i : Instr) (s t : State), exec i s = .next t →
    (∀ n : Fin 32, n ≠ i.args.d → t.v.get n = s.v.get n) ∧
    (∀ n : Fin 8, t.k.get n = s.k.get n) ∧ (∀ n : Fin 16, t.x.get n = s.x.get n) ∧
    t.rflags = s.rflags ∧ t.mxcsr = s.mxcsr ∧ t.cr0 = s.cr0 ∧ t.cr2 = s.cr2 ∧ t.cr4 = s.cr4 ∧ t.xcr0 = s.xcr0 ∧
    t.fsBase = s.fsBase ∧ t.gsBase = s.gsBase ∧ t.mode = s.mode ∧ t.cpl = s.cpl ∧ t.cfg = s.cfg ∧
    t.text = s.text ∧ (∀ a : Nat, t.mem.readByte a = s.mem.readByte a) ∧
    t.rip = s.rip + BitVec.ofNat 64 i.len ∧ t.running = true ∧ (t.wrapped = (s.wrapped || decide (2 ^ 64 ≤ s.rip.toNat + i.len)))

/-- The bits of the destination above the vector length are zero after every form, whatever the mask
(`spec/00_scope.md` section 6, WRITEVEC; for VINSERTF128 by decision D4). -/
def Obligations.BitsAboveVectorLengthZero : Prop :=
  ∀ (i : Instr) (s t : State) (p : Nat), exec i s = .next t → i.row.vl ≤ p →
    (t.v.get i.args.d).getLsbD p = false

/-- A run that ends, after at most `k` steps from any state, at the end of its program ends with `rip` there, 6 to 14
bytes on for each instruction, never past the top of the address space, and has changed no register but vector
registers and `rip`, no parameter and no byte of memory; a step from there is refused. If it began with a launch, it
began at the start of its program, so that it ran over every byte of it. That the end may be a non-canonical address is
log entry 24 (`spec/70_reset_and_hazards.md`, End of a run, D22; D16; lengths `spec/30_encoding.md` section 3). -/
def Obligations.FinishedRunChangesOnlyVectorsAndRip : Prop :=
  ∀ (k : Nat) (s t : State), runTo k s = .final t →
    t.rip = BitVec.ofNat 64 (s.text.base + s.text.size) ∧
    (∃ steps n : Nat, 1 ≤ steps ∧ steps ≤ k ∧ 6 * steps ≤ n ∧ n ≤ 14 * steps ∧
      t.rip = s.rip + BitVec.ofNat 64 n ∧ s.rip.toNat + n = s.text.base + s.text.size ∧ s.rip.toNat + n ≤ 2 ^ 64 ∧
      (s.running = false → s.rip.toNat = s.text.base ∧ n = s.text.size)) ∧
    t.k = s.k ∧ t.x = s.x ∧ t.rflags = s.rflags ∧ t.mxcsr = s.mxcsr ∧ t.cr0 = s.cr0 ∧ t.cr2 = s.cr2 ∧ t.cr4 = s.cr4 ∧
    t.xcr0 = s.xcr0 ∧ t.fsBase = s.fsBase ∧ t.gsBase = s.gsBase ∧ t.mode = s.mode ∧ t.cpl = s.cpl ∧ t.cfg = s.cfg ∧
    t.text = s.text ∧ (∀ a : Nat, t.mem.readByte a = s.mem.readByte a) ∧
    step t = .refused (if s.text.base + s.text.size = 2 ^ 64 then .programWraps else .outsideProgram)

/-- A run from any state ends, in a final state, a fault or a refusal, within as many steps as the program has bytes,
and one more for an empty program; and an instruction that completes ends within the program
(`spec/70_reset_and_hazards.md`, End of a run: "always terminates"). -/
def Obligations.RunsTerminate : Prop :=
  (∀ s u : State, runTo (s.text.size + 1) s ≠ .unfinished u) ∧
  ∀ s t : State, step s = .next t →
    ∃ i, exec i s = .next t ∧ 6 ≤ i.len ∧ s.rip.toNat + i.len ≤ s.text.base + s.text.size

/-! ### Invariants -/

/-- Every step from a state with a canonical memory and no bit outside MAXVL, NVEC and KW leads to such a state. The
storage this speaks of is the model's (log entries 3 and 6). -/
def Obligations.StepKeepsInvariant : Prop :=
  ∀ s t : State, s.Inv → step s = .next t → t.Inv

/-- The launch state has the invariant. Its values are the model's (log entries 1 to 6). -/
def Obligations.LaunchStateHasInvariant : Prop := State.reset.Inv

/-- The launch state meets the launch premises (`spec/70_reset_and_hazards.md`, Boot requirements; the values are the
model's, log entries 1, 2, 18 and 20: its program is empty, so that the premise on program text holds of no byte). -/
def Obligations.LaunchStateMeetsPremises : Prop := State.reset.LaunchPremises

/-! ### Exceptions -/

/-- `spec/60_exceptions.md` section on causes, the #UD rule's items 2, 3, 5 and 6 (general knowledge there): a form in
a mode that does not recognise it, with a flag of its row 0, without OSXSAVE, without the SSE or AVX state bit,
an EVEX form without one of the AVX-512 state bits, or with zeroing and no mask, raises #UD whatever its operands. -/
def Obligations.DisabledFormRaisesInvalidOpcode : Prop :=
  ∀ (i : Instr) (s : State),
    (s.mode = .realAddress ∨ s.mode = .virtual8086 ∨ (∃ f ∈ i.row.needs, s.cfg.has f = false) ∨
      s.cr4.getLsbD 18 = false ∨ s.xcr0.getLsbD 1 = false ∨ s.xcr0.getLsbD 2 = false ∨
      (i.row.evex = true ∧ (s.xcr0.getLsbD 5 = false ∨ s.xcr0.getLsbD 6 = false ∨ s.xcr0.getLsbD 7 = false)) ∨
      (i.args.kn = 0 ∧ i.args.z = true)) →
    exec i s = .fault (.invalidOpcode s.rip)

/-- `spec/95_test_vectors.md` program P4: on an implementation without AVX512F every EVEX form raises #UD. -/
def Obligations.NoEvexFormWithoutAvx512f : Prop :=
  ∀ (i : Instr) (s : State), i.row.evex = true → s.cfg.has .avx512f = false → exec i s = .fault (.invalidOpcode s.rip)

/-- `spec/60_exceptions.md` (#NM and the priority, general knowledge there): with no #UD condition and CR0.TS = 1
every form raises #NM, before any memory access: whatever its operand. -/
def Obligations.TaskSwitchedRaisesDeviceNotAvailable : Prop :=
  ∀ (i : Instr) (s : State), s.Recognises i → s.cr0.getLsbD 3 = true →
    exec i s = .fault (.deviceNotAvailable s.rip)

/-- `spec/60_exceptions.md` (#GP and #SS, general knowledge there): a memory operand that does not pass address
2^64 - 1 and has a non-canonical byte raises #SS(0) if its base is RSP or RBP and no FS or GS override is present,
else #GP(0), whether or not its bytes are readable or aligned. -/
def Obligations.NonCanonicalOperandFaults : Prop :=
  ∀ (i : Instr) (s : State) (m : MemOp) (j : Nat), i.mem? = some m → s.Enables i → s.mode = .bits64 →
    (i.linear m s).toNat + i.width ≤ 2 ^ 64 → j < i.width →
    s.cfg.law.canonical (BitVec.ofNat 64 ((i.linear m s).toNat + j)) = false →
    exec i s = .fault
      (if (m.baseReg = some 4 ∨ m.baseReg = some 5) ∧ i.args.pre.seg ≠ some .fs ∧ i.args.pre.seg ≠ some .gs then
        .stackSegment s.rip else .generalProtection s.rip)

/-- `spec/60_exceptions.md` (#PF, general knowledge there, D12): a canonical memory operand with an unreadable byte
raises #PF, which records the operand's range; the writemask does not suppress it. -/
def Obligations.UnreadableOperandPageFaults : Prop :=
  ∀ (i : Instr) (s : State) (m : MemOp) (j : Nat), i.mem? = some m → s.Enables i → s.mode = .bits64 →
    (i.linear m s).toNat + i.width ≤ 2 ^ 64 →
    (∀ q < i.width, s.cfg.law.canonical (BitVec.ofNat 64 ((i.linear m s).toNat + q)) = true) →
    j < i.width → s.byteReadable ((i.linear m s).toNat + j) = false →
    exec i s = .fault (.pageFault (i.linear m s) i.width s.rip)

/-- D28: a memory operand whose bytes would pass address 2^64 - 1 is refused. -/
def Obligations.WrappingOperandRefused : Prop :=
  ∀ (i : Instr) (s : State) (m : MemOp), i.mem? = some m → s.Enables i → s.mode = .bits64 →
    2 ^ 64 < (i.linear m s).toNat + i.width → exec i s = .refused .operandWraps

/-- D9 (`spec/20_memory.md`, Alignment): while CR0.AM, RFLAGS.AC and CPL = 3 put alignment checking in force, every
otherwise admitted memory operand is refused by a meaning, aligned or not. The step of every form is, by
StepRefusesLaunchOutsidePremises. -/
def Obligations.MemoryOperandUnderAlignmentCheckingRefused : Prop :=
  ∀ (i : Instr) (s : State) (m : MemOp), i.mem? = some m → s.Enables i → s.mode = .bits64 → s.AlignmentChecking →
    (i.linear m s).toNat + i.width ≤ 2 ^ 64 →
    (∀ q < i.width, s.cfg.law.canonical (BitVec.ofNat 64 ((i.linear m s).toNat + q)) = true) →
    (∀ q < i.width, s.byteReadable ((i.linear m s).toNat + q) = true) →
    exec i s = .refused .alignmentChecking

/-- D1 as the model reads it (log entry 9): a memory operand in compatibility or protected mode is refused. -/
def Obligations.MemoryOperandOutside64BitModeRefused : Prop :=
  ∀ (i : Instr) (s : State) (m : MemOp), i.mem? = some m → s.Enables i → s.mode ≠ .bits64 →
    exec i s = .refused .addressingOutside64BitMode

/-- `spec/60_exceptions.md`, exception causes and trap entry as modelled (general knowledge there, D13): every fault of
an instruction or of a step records the `rip` of the faulting instruction, and has the vector and the error code of
its exception: none for #UD and #NM, 0 for #SS and #GP, and for #PF a code that the model does not compute (D12). -/
def Obligations.FaultsRecordTheirInstruction : Prop :=
  ∀ (s : State) (f : Fault), ((∃ i, exec i s = .fault f) ∨ step s = .fault f) →
    f.rip = s.rip ∧
    match f with
    | .invalidOpcode rip => rip = s.rip ∧ f.vector = 6 ∧ f.errorCode = .none
    | .deviceNotAvailable rip => rip = s.rip ∧ f.vector = 7 ∧ f.errorCode = .none
    | .stackSegment rip => rip = s.rip ∧ f.vector = 12 ∧ f.errorCode = .zero
    | .generalProtection rip => rip = s.rip ∧ f.vector = 13 ∧ f.errorCode = .zero
    | .pageFault _ _ rip => rip = s.rip ∧ f.vector = 14 ∧ f.errorCode = .notComputed

/-- `spec/60_exceptions.md` R167: no form raises #XM (vector 19), sets an MXCSR flag, or depends on MXCSR or on a CR4
bit other than OSXSAVE; and no data in registers or memory makes a form raise an exception. -/
def Obligations.NoSimdFloatingPointException : Prop :=
  ∀ (i : Instr) (s : State),
    (∀ f, exec i s = .fault f → f.vector ≠ 19) ∧
    (∀ t, exec i s = .next t → t.mxcsr = s.mxcsr) ∧
    (∀ c, exec i { s with mxcsr := c } = mapNext (fun t => { t with mxcsr := c }) (exec i s)) ∧
    (∀ c : Word64, c.getLsbD 18 = s.cr4.getLsbD 18 →
      exec i { s with cr4 := c } = mapNext (fun t => { t with cr4 := c }) (exec i s)) ∧
    (∀ v m f, exec i { s with v := v, mem := m } = .fault f ↔ exec i s = .fault f)

/-- A form with a register second source is never refused, in any state; a memory form is refused only by one of the
three names the spec's decisions D1, D9 and D28 ask for. -/
def Obligations.RefusalsAreTheSpecsOwn : Prop :=
  ∀ (i : Instr) (s : State) (r : Refusal), exec i s = .refused r →
    i.mem? ≠ none ∧ (r = .addressingOutside64BitMode ∨ r = .operandWraps ∨ r = .alignmentChecking)

/-! ### What does not matter -/

/-- `spec/20_memory.md`, atomicity, side effects and the mask (derived there): whether a form faults, is refused or
completes does not depend on any opmask register; the read is made and can fault whatever the mask. -/
def Obligations.WritemaskDoesNotGateTheRead : Prop :=
  ∀ (i : Instr) (s : State) (k : Vector Opmask 8),
    (∀ f, exec i { s with k := k } = .fault f ↔ exec i s = .fault f) ∧
    (∀ r, exec i { s with k := k } = .refused r ↔ exec i s = .refused r)

/-- `spec/95_test_vectors.md` section 7 item 7: the destination does not depend on bits of SRC1 at VL and above, of a
register SRC2 at W and above, of the mask register at KL and above, nor on the old destination without a mask or under
zeroing. -/
def Obligations.UnreadBitsDoNotMatter : Prop :=
  ∀ (i : Instr) (s t : State) (v : Vector VecReg 32) (k : Vector Opmask 8),
    (∀ p < i.row.vl, (v.get i.args.s1).getLsbD p = (s.v.get i.args.s1).getLsbD p) →
    (∀ n, i.args.src2 = .reg n → ∀ p < i.row.w, (v.get n).getLsbD p = (s.v.get n).getLsbD p) →
    (i.args.kn ≠ 0 → ∀ j < i.kl, (k.get i.args.kn).getLsbD j = (s.k.get i.args.kn).getLsbD j) →
    (i.args.kn ≠ 0 → i.args.z = false →
      ∀ p < i.row.vl, (v.get i.args.d).getLsbD p = (s.v.get i.args.d).getLsbD p) →
    exec i s = .next t →
    ∃ u, exec i { s with v := v, k := k } = .next u ∧ u.v.get i.args.d = t.v.get i.args.d

/-- `spec/20_memory.md`, the memory operand: of all memory, a form reads the W / 8 bytes of its operand and no other, so
bytes elsewhere change nothing. -/
def Obligations.OnlyOperandBytesAreRead : Prop :=
  ∀ (i : Instr) (s : State) (m : MemOp) (mem : Memory), i.mem? = some m →
    (∀ q < i.width, mem.readByte ((i.linear m s).toNat + q) = s.mem.readByte ((i.linear m s).toNat + q)) →
    exec i { s with mem := mem } = mapNext (fun t => { t with mem := mem }) (exec i s)

/-- `spec/95_test_vectors.md` section 7 item 7: a form with a register second source depends on no general register,
segment base, byte of memory, flag or privilege level, and leaves them as they are. -/
def Obligations.RegisterFormsIgnoreAddressState : Prop :=
  ∀ (i : Instr) (s : State) (x : Vector Word64 16) (fs gs rflags : Word64) (cpl : Fin 4) (mem : Memory),
    i.mem? = none →
    exec i { s with x := x, fsBase := fs, gsBase := gs, rflags := rflags, cpl := cpl, mem := mem } =
      mapNext (fun t => { t with x := x, fsBase := fs, gsBase := gs, rflags := rflags, cpl := cpl, mem := mem })
        (exec i s)

/-- `spec/60_exceptions.md`, privilege (D13): with alignment checking out of the way (CR0.AM = 0) every form executes
identically at every privilege level. -/
def Obligations.PrivilegeLevelDoesNotMatter : Prop :=
  ∀ (i : Instr) (s : State) (cpl : Fin 4), s.cr0.getLsbD 18 = false →
    exec i { s with cpl := cpl } = mapNext (fun t => { t with cpl := cpl }) (exec i s)

/-- `spec/10_state.md`, no writemask (general knowledge there): `k[0]` is read by no form, so changing it changes
nothing else. -/
def Obligations.OpmaskZeroIsNeverRead : Prop :=
  ∀ (i : Instr) (s : State) (m : Opmask),
    exec i { s with k := s.k.set 0 m } = mapNext (fun t => { t with k := t.k.set 0 m }) (exec i s)

/-! ### Relations between forms and corner cases -/

/-- `spec/41_...md` and `spec/42_...md`, corner cases (derived there): with no writemask the 32-bit and the 64-bit
granular form of one length do the same. -/
def Obligations.UnmaskedGranularitiesAgree : Prop :=
  ∀ (a : EvexArgs) (s : State), a.kn = 0 →
    (s.Ready (.vinsertf32x4Ymm a) → s.Ready (.vinsertf64x2Ymm a) →
      exec (.vinsertf32x4Ymm a) s = exec (.vinsertf64x2Ymm a) s) ∧
    (s.Ready (.vinsertf32x4Zmm a) → s.Ready (.vinsertf64x2Zmm a) →
      exec (.vinsertf32x4Zmm a) s = exec (.vinsertf64x2Zmm a) s) ∧
    (s.Ready (.vinsertf32x8 a) → s.Ready (.vinsertf64x4 a) →
      exec (.vinsertf32x8 a) s = exec (.vinsertf64x4 a) s)

/-- `spec/40_vinsertf128.md`, relation to the EVEX form (derived there, given D4): VINSERTF128 computes the vector
registers that the unmasked VINSERTF32X4 ymm and VINSERTF64X2 ymm compute on the same operands; a memory operand is
the same when its linear address is (the displacement scaling and the length differ). -/
def Obligations.VexAgreesWithUnmaskedEvex : Prop :=
  ∀ (a : VexArgs) (s : State) (i : Instr), i = .vinsertf32x4Ymm a.toEvex ∨ i = .vinsertf64x2Ymm a.toEvex →
    s.Ready (.vinsertf128 a) → s.Ready i →
    (∀ m, i.mem? = some m → (Instr.vinsertf128 a).linear m s = i.linear m s) →
    ∃ t u, exec (.vinsertf128 a) s = .next t ∧ exec i s = .next u ∧ t.v = u.v

/-- `spec/41_...md` and `spec/42_...md` (derived there): a 64-bit granular form with mask M computes what the 32-bit
granular form computes with every bit of M doubled. -/
def Obligations.DoubledMaskRelatesGranularities : Prop :=
  ∀ (a : EvexArgs) (s : State) (m : Opmask) (i i' : Instr),
    (i = .vinsertf64x2Ymm a ∧ i' = .vinsertf32x4Ymm a) ∨ (i = .vinsertf64x2Zmm a ∧ i' = .vinsertf32x4Zmm a) ∨
      (i = .vinsertf64x4 a ∧ i' = .vinsertf32x8 a) →
    a.kn ≠ 0 → (∀ j < 8, m.getLsbD (2 * j) = (s.k.get a.kn).getLsbD j ∧
      m.getLsbD (2 * j + 1) = (s.k.get a.kn).getLsbD j) →
    s.Ready i → s.Ready i' →
    ∃ t u, exec i s = .next t ∧ exec i' { s with k := s.k.set a.kn m } = .next u ∧ t.v = u.v

/-- `spec/95_test_vectors.md` section 7 item 5: a mask whose KL bits are all 0 leaves the low VL bits of the destination
under merging and makes the whole register zero under zeroing; either way bits above VL become zero. -/
def Obligations.AllZeroMaskKeepsOrClears : Prop :=
  ∀ (i : Instr) (s t : State), i.args.kn ≠ 0 → (∀ j < i.kl, (s.k.get i.args.kn).getLsbD j = false) →
    exec i s = .next t →
    (i.args.z = true → t.v.get i.args.d = 0) ∧
    (i.args.z = false → ∀ p, (t.v.get i.args.d).getLsbD p =
      (decide (p < i.row.vl) && (s.v.get i.args.d).getLsbD p))

/-- `spec/95_test_vectors.md` section 7 item 4: a mask whose KL bits are all 1 writes what no mask writes, whatever
z. -/
def Obligations.AllOnesMaskIsNoMask : Prop :=
  ∀ (a : EvexArgs) (s t : State) (row : EvexArgs → Instr),
    row ∈ [.vinsertf32x4Ymm, .vinsertf32x4Zmm, .vinsertf64x2Ymm, .vinsertf64x2Zmm, .vinsertf32x8, .vinsertf64x4] →
    (∀ j < (row a).kl, (s.k.get a.kn).getLsbD j = true) → exec (row a) s = .next t →
    exec (row { a with kn := 0, z := false }) s = .next t

/-- `spec/95_test_vectors.md` section 7 item 6: with a destination that is neither source, executing an instruction
again from the same `rip` changes nothing. -/
def Obligations.RepeatingAnInsertChangesNothing : Prop :=
  ∀ (i : Instr) (s t : State), i.args.d ≠ i.args.s1 → i.args.src2 ≠ .reg i.args.d → exec i s = .next t →
    exec i { t with rip := s.rip } = .next t

/-! ### Addresses -/

/-- `spec/20_memory.md`, effective and linear address (general knowledge there): an address is canonical when bits 63
down to LAW - 1 are all equal, LAW being 48 or 57. A byte is readable when a region of `State.cfg` holds it (log
entry 4), and is program text when it is below 2^64, canonical and readable (P_text, log entry 18). -/
def Obligations.CanonicalReadableAndFetchable : Prop :=
  (∀ a : Word64, LinearWidth.law48.canonical a = true ↔ ∀ j, 47 ≤ j → j ≤ 63 → a.getLsbD j = a.getLsbD 63) ∧
  (∀ a : Word64, LinearWidth.law57.canonical a = true ↔ ∀ j, 56 ≤ j → j ≤ 63 → a.getLsbD j = a.getLsbD 63) ∧
  ∀ (s : State) (a : Nat),
    (s.byteReadable a = true ↔ ∃ r ∈ s.cfg.readable, r.base ≤ a ∧ a < r.base + r.size) ∧
    (s.fetchable a = true ↔
      a < 2 ^ 64 ∧ s.cfg.law.canonical (BitVec.ofNat 64 a) = true ∧ s.byteReadable a = true)

/-- `spec/20_memory.md`, effective and linear address (general knowledge there, D18, D19): the linear address in
integers, with base, scaled index and displacement summed exactly and reduced once, modulo 2^32 under the 67 byte and
2^64 otherwise; then FS or GS base added modulo 2^64. A disp8 counts N times. -/
def Obligations.LinearAddressIsTheReducedSum : Prop :=
  ∀ (p : Prefixes) (n len : Nat) (m : MemOp) (s : State),
    ((linearAddress p n m len s).toNat : Int) =
      (m.sum n len s % (if p.asz32 then 2 ^ 32 else 2 ^ 64) +
        (if p.seg = some .fs then (s.fsBase.toNat : Int) else if p.seg = some .gs then (s.gsBase.toNat : Int) else 0))
      % 2 ^ 64
end

