-- ==== Sys2Proof/Laws/State.lean ====
section
/-! SUPPORT. One lemma per field for each update of the state, all true by rfl, so that no proof unfolds a record
update; and how a register reads after a write. -/

namespace Sys2Proof.Machine

variable {vl : Nat} (d : Fin 32) (r : BitVec vl) (len nbits w : Nat) (s : State)

/-! ### Writing a vector register -/

@[simp] theorem writeVec_cfg : (s.writeVec d r).cfg = s.cfg := rfl
@[simp] theorem writeVec_mode : (s.writeVec d r).mode = s.mode := rfl
@[simp] theorem writeVec_cpl : (s.writeVec d r).cpl = s.cpl := rfl
@[simp] theorem writeVec_v : (s.writeVec d r).v = s.v.set d (r.setWidth 512) := rfl
@[simp] theorem writeVec_k : (s.writeVec d r).k = s.k := rfl
@[simp] theorem writeVec_x : (s.writeVec d r).x = s.x := rfl
@[simp] theorem writeVec_rip : (s.writeVec d r).rip = s.rip := rfl
@[simp] theorem writeVec_running : (s.writeVec d r).running = s.running := rfl
@[simp] theorem writeVec_wrapped : (s.writeVec d r).wrapped = s.wrapped := rfl
@[simp] theorem writeVec_text : (s.writeVec d r).text = s.text := rfl
@[simp] theorem writeVec_fsBase : (s.writeVec d r).fsBase = s.fsBase := rfl
@[simp] theorem writeVec_gsBase : (s.writeVec d r).gsBase = s.gsBase := rfl
@[simp] theorem writeVec_rflags : (s.writeVec d r).rflags = s.rflags := rfl
@[simp] theorem writeVec_mxcsr : (s.writeVec d r).mxcsr = s.mxcsr := rfl
@[simp] theorem writeVec_cr0 : (s.writeVec d r).cr0 = s.cr0 := rfl
@[simp] theorem writeVec_cr2 : (s.writeVec d r).cr2 = s.cr2 := rfl
@[simp] theorem writeVec_cr4 : (s.writeVec d r).cr4 = s.cr4 := rfl
@[simp] theorem writeVec_xcr0 : (s.writeVec d r).xcr0 = s.xcr0 := rfl
@[simp] theorem writeVec_mem : (s.writeVec d r).mem = s.mem := rfl

/-! ### Advancing the instruction pointer -/

@[simp] theorem advance_cfg : (s.advance len).cfg = s.cfg := rfl
@[simp] theorem advance_mode : (s.advance len).mode = s.mode := rfl
@[simp] theorem advance_cpl : (s.advance len).cpl = s.cpl := rfl
@[simp] theorem advance_v : (s.advance len).v = s.v := rfl
@[simp] theorem advance_k : (s.advance len).k = s.k := rfl
@[simp] theorem advance_x : (s.advance len).x = s.x := rfl
@[simp] theorem advance_rip : (s.advance len).rip = s.rip + BitVec.ofNat 64 len := rfl
@[simp] theorem advance_running : (s.advance len).running = true := rfl
@[simp] theorem advance_wrapped : (s.advance len).wrapped = (s.wrapped || s.reachesTop len) := rfl
@[simp] theorem advance_text : (s.advance len).text = s.text := rfl
@[simp] theorem advance_fsBase : (s.advance len).fsBase = s.fsBase := rfl
@[simp] theorem advance_gsBase : (s.advance len).gsBase = s.gsBase := rfl
@[simp] theorem advance_rflags : (s.advance len).rflags = s.rflags := rfl
@[simp] theorem advance_mxcsr : (s.advance len).mxcsr = s.mxcsr := rfl
@[simp] theorem advance_cr0 : (s.advance len).cr0 = s.cr0 := rfl
@[simp] theorem advance_cr2 : (s.advance len).cr2 = s.cr2 := rfl
@[simp] theorem advance_cr4 : (s.advance len).cr4 = s.cr4 := rfl
@[simp] theorem advance_xcr0 : (s.advance len).xcr0 = s.xcr0 := rfl
@[simp] theorem advance_mem : (s.advance len).mem = s.mem := rfl

/-! ### Placing an instruction's bytes -/

@[simp] theorem withFetchWord_rip : (s.withFetchWord nbits w).rip = s.rip := rfl
@[simp] theorem withFetchWord_running : (s.withFetchWord nbits w).running = false := rfl
@[simp] theorem withFetchWord_wrapped : (s.withFetchWord nbits w).wrapped = false := rfl
@[simp] theorem withFetchWord_text :
    (s.withFetchWord nbits w).text = { base := s.rip.toNat, size := tableLen nbits w } := rfl
@[simp] theorem withFetchWord_v : (s.withFetchWord nbits w).v = s.v := rfl
@[simp] theorem withFetchWord_cfg : (s.withFetchWord nbits w).cfg = s.cfg := rfl
@[simp] theorem withFetchWord_mem :
    (s.withFetchWord nbits w).mem = s.mem.writeBytes s.rip.toNat (tableBytes nbits w) := rfl

/-! ### Reading a register after a write -/

/-- A register file after `set d` reads the new value at `d` and is as before elsewhere. -/
theorem get_set {α : Type} {n : Nat} (v : Vector α n) (d m : Fin n) (a : α) :
    (v.set d a).get m = if m = d then a else v.get m := by
  simp only [Vector.get_eq_getElem, Vector.getElem_set, Fin.ext_iff, eq_comm]

/-- A view narrower than the register reads the register's bits. -/
theorem view_getLsbD (vw : Nat) (n : Fin 32) (p : Nat) (h : p < vw) :
    (s.view vw n).getLsbD p = (s.v.get n).getLsbD p := by
  simp [State.view, h]

end Sys2Proof.Machine
end

