-- ==== Sys2Proof/Laws/Memory.lean ====
section
/-! SUPPORT. Memory: every operation keeps the canonical form, a read after a write gives the byte written and
leaves every other place alone, and the load is little-endian. -/

namespace Sys2Proof.Machine

theorem Memory.wfFrom_mono {lo lo' : Nat} (h : lo' ≤ lo) :
    ∀ {m : Memory}, Memory.wfFrom lo m = true → Memory.wfFrom lo' m = true
  | [], _ => rfl
  | (a, b) :: m, hm => by
    simp only [Memory.wfFrom, Bool.and_eq_true, decide_eq_true_eq] at hm ⊢
    exact ⟨⟨⟨h.trans hm.1.1.1, hm.1.1.2⟩, hm.1.2⟩, hm.2⟩

/-- Below its first possible address a canonical memory lists nothing. -/
theorem Memory.readByte_below {lo a : Nat} (h : a < lo) :
    ∀ {m : Memory}, Memory.wfFrom lo m = true → m.readByte a = 0
  | [], _ => rfl
  | (k, b) :: m, hm => by
    simp only [Memory.wfFrom, Bool.and_eq_true, decide_eq_true_eq] at hm
    have hk : k ≠ a := by omega
    simp only [Memory.readByte, hk, if_false]
    exact Memory.readByte_below (by omega) hm.2

theorem Memory.wfFrom_cons {lo a : Nat} {b : Byte} {m : Memory} (hlo : lo ≤ a) (ha : a < 2 ^ 64)
    (hm : Memory.wfFrom (a + 1) m = true) : Memory.wfFrom lo (Memory.cons a b m) = true := by
  by_cases hb : b = 0
  · simpa [Memory.cons, hb] using Memory.wfFrom_mono (by omega) hm
  · simp only [Memory.cons, hb, if_false, Memory.wfFrom, Bool.and_eq_true, decide_eq_true_eq]
    exact ⟨⟨⟨hlo, ha⟩, by simpa using hb⟩, hm⟩

/-- A write of an existing address keeps the canonical form. -/
theorem Memory.wfFrom_writeByte {a : Nat} {b : Byte} (ha : a < 2 ^ 64) :
    ∀ {m : Memory} {lo : Nat}, lo ≤ a → Memory.wfFrom lo m = true → Memory.wfFrom lo (Memory.writeByte a b m) = true
  | [], _, hlo, _ => Memory.wfFrom_cons hlo ha rfl
  | (k, c) :: m, lo, hlo, hm => by
    have hm' := hm
    simp only [Memory.wfFrom, Bool.and_eq_true, decide_eq_true_eq] at hm
    simp only [Memory.writeByte]
    split
    · rename_i h
      refine Memory.wfFrom_cons hlo ha ?_
      simp only [Memory.wfFrom, Bool.and_eq_true, decide_eq_true_eq]
      exact ⟨⟨⟨by omega, hm.1.1.2⟩, hm.1.2⟩, hm.2⟩
    · split
      · rename_i h
        subst h
        exact Memory.wfFrom_cons hlo ha hm.2
      · simp only [Memory.wfFrom, Bool.and_eq_true, decide_eq_true_eq]
        exact ⟨hm.1, Memory.wfFrom_writeByte ha (by omega) hm.2⟩

theorem Memory.wf_writeByte {a : Nat} {b : Byte} {m : Memory} (ha : a < 2 ^ 64) (hm : m.wf = true) :
    (Memory.writeByte a b m).wf = true :=
  Memory.wfFrom_writeByte ha (Nat.zero_le a) hm

/-- Writing bytes that stay below 2^64 keeps the canonical form. -/
theorem Memory.wf_writeBytes :
    ∀ {bs : List Byte} {m : Memory} {a : Nat}, a + bs.length ≤ 2 ^ 64 → m.wf = true → (m.writeBytes a bs).wf = true
  | [], _, _, _, hm => hm
  | b :: bs, m, a, h, hm => by
    simp only [List.length_cons] at h
    rw [Memory.writeBytes]
    exact Memory.wf_writeBytes (by omega) (Memory.wf_writeByte (by omega) hm)

theorem Memory.readByte_cons {lo a a' : Nat} {b : Byte} {m : Memory} (hm : Memory.wfFrom lo m = true) (h : a < lo) :
    (Memory.cons a b m).readByte a' = if a' = a then b else m.readByte a' := by
  unfold Memory.cons
  by_cases hb : b = 0
  · rw [if_pos hb, hb]
    by_cases ha : a' = a
    · rw [if_pos ha, ha, Memory.readByte_below h hm]
    · rw [if_neg ha]
  · rw [if_neg hb, Memory.readByte]
    by_cases ha : a' = a
    · rw [if_pos ha, if_pos ha.symm]
    · rw [if_neg ha, if_neg (Ne.symm ha)]

/-- A read after a write: the byte written at its address, every other byte as before. -/
theorem Memory.readByte_writeByte {a a' : Nat} {b : Byte} :
    ∀ {m : Memory} {lo : Nat}, Memory.wfFrom lo m = true →
      (Memory.writeByte a b m).readByte a' = if a' = a then b else m.readByte a'
  | [], _, _ => Memory.readByte_cons (lo := a + 1) rfl (by omega)
  | (k, c) :: m, lo, hm => by
    have hm' := hm
    simp only [Memory.wfFrom, Bool.and_eq_true, decide_eq_true_eq] at hm
    simp only [Memory.writeByte]
    split
    · rename_i h
      refine Memory.readByte_cons (lo := k) ?_ h
      simp only [Memory.wfFrom, Bool.and_eq_true, decide_eq_true_eq]
      exact ⟨⟨⟨le_refl k, hm.1.1.2⟩, hm.1.2⟩, hm.2⟩
    · split
      · rename_i h
        subst h
        rw [Memory.readByte_cons (lo := a + 1) hm.2 (by omega)]
        by_cases ha : a' = a
        · simp [ha]
        · simp [ha, Memory.readByte, Ne.symm ha]
      · rename_i h1 h2
        simp only [Memory.readByte]
        by_cases hk : k = a'
        · have hne : a' ≠ a := by omega
          simp [hk, hne]
        · simp only [hk, if_false]
          exact Memory.readByte_writeByte hm.2

/-- Bytes written at ascending addresses read back there, every other byte is as before. -/
theorem Memory.readByte_writeBytes :
    ∀ {bs : List Byte} {m : Memory} {a a' : Nat}, a + bs.length ≤ 2 ^ 64 → m.wf = true →
      (m.writeBytes a bs).readByte a' = if h : a ≤ a' ∧ a' - a < bs.length then bs[a' - a]'h.2 else m.readByte a'
  | [], _, _, _, _, _ => by simp [Memory.writeBytes]
  | b :: bs, m, a, a', h, hm => by
    simp only [List.length_cons] at h
    have ih := Memory.readByte_writeBytes (bs := bs) (m := Memory.writeByte a b m) (a := a + 1) (a' := a')
      (by omega) (Memory.wf_writeByte (by omega) hm)
    simp only [Memory.writeBytes, ih, Memory.readByte_writeByte hm, List.length_cons]
    rcases Nat.lt_trichotomy a' a with hlt | rfl | hgt
    · rw [dif_neg (by omega), dif_neg (by omega), if_neg (by omega)]
    · rw [dif_neg (by omega), dif_pos (by omega)]
      simp
    · by_cases hin : a' - a < bs.length + 1
      · rw [dif_pos (by omega), dif_pos (by omega)]
        obtain ⟨k, hk⟩ : ∃ k, a' - a = k + 1 := ⟨a' - a - 1, by omega⟩
        have hk' : a' - (a + 1) = k := by omega
        simp [hk, hk']
      · rw [dif_neg (by omega), dif_neg (by omega), if_neg (by omega)]

/-- R52: bit `p` of a loaded value is bit `p % 8` of the byte at `a + p / 8`. -/
theorem Memory.load_getLsbD (w : Nat) (m : Memory) (a : Nat) :
    ∀ n p, 8 * n ≤ w → (Memory.load w m a n).getLsbD p =
      (decide (p < 8 * n) && (m.readByte (a + p / 8)).getLsbD (p % 8))
  | 0, p, _ => by simp [Memory.load]
  | n + 1, p, h => by
    simp only [Memory.load, BitVec.getLsbD_or, Memory.load_getLsbD w m a n p (by omega), BitVec.getLsbD_shiftLeft,
      BitVec.getLsbD_setWidth]
    by_cases h1 : p < 8 * n
    · simp [h1, show p < 8 * (n + 1) by omega]
    · by_cases h2 : p < 8 * (n + 1)
      · have e1 : p / 8 = n := by omega
        have e2 : p - 8 * n = p % 8 := by omega
        simp [h1, h2, e1, e2, show p < w by omega, show p % 8 < w by omega]
      · have : 8 ≤ p - 8 * n := by omega
        simp [h1, h2, BitVec.getLsbD_of_ge _ _ this]

theorem reset_mem_wf : State.reset.mem.wf = true := rfl

/-- Placing an instruction's bytes keeps the canonical form when they stay below 2^64. -/
theorem withFetchWord_mem_wf (s : State) (nbits w : Nat) (hm : s.mem.wf = true)
    (h : s.rip.toNat + (tableBytes nbits w).length ≤ 2 ^ 64) : (s.withFetchWord nbits w).mem.wf = true :=
  Memory.wf_writeBytes h hm

end Sys2Proof.Machine
end

