-- ==== Sys2Proof/Laws/Vector.lean ====
section
/-! SUPPORT. INSERT and MASKED bit by bit: `spec/00_scope.md` R12 and R13 as the spec writes them, proved of the
shift-and-mask definitions. -/

namespace Sys2Proof.Machine

/-- R12: inside the block the bit of `src2`, outside it the bit of `src1`. -/
theorem insertBlock_getLsbD {vl w : Nat} (src1 : BitVec vl) (src2 : BitVec w) (i p : Nat) (hp : p < vl) :
    (insertBlock src1 src2 i).getLsbD p =
      if w * i ≤ p ∧ p < w * i + w then src2.getLsbD (p - w * i) else src1.getLsbD p := by
  simp only [insertBlock, BitVec.getLsbD_or, BitVec.getLsbD_and, BitVec.getLsbD_not, BitVec.getLsbD_shiftLeft,
    BitVec.getLsbD_setWidth, BitVec.getLsbD_allOnes]
  by_cases h1 : w * i ≤ p
  · by_cases h2 : p < w * i + w
    · have e : p - w * i < w := by omega
      simp [h1, h2, hp, e, show p - w * i < vl by omega, show ¬p < w * i by omega]
    · have e : ¬p - w * i < w := by omega
      have e2 : src2.getLsbD (p - w * i) = false := BitVec.getLsbD_of_ge _ _ (by omega)
      simp [h2, hp, e, e2]
  · simp [hp, h1, show p < w * i by omega]

/-- The loop after `n` elements: below element `n` the masked update of R13, above it the old value. -/
theorem maskedLoop_getLsbD {vl es : Nat} (old t : BitVec vl) (m : Option Opmask) (z : Bool) (hes : 0 < es) :
    ∀ n p, p < vl → n * es ≤ vl → (maskedLoop es old t m z n).getLsbD p =
      if p < n * es then
        if m.all (·.getLsbD (p / es)) then t.getLsbD p else if z then false else old.getLsbD p
      else old.getLsbD p
  | 0, p, _, _ => by simp [maskedLoop]
  | n + 1, p, hp, hn => by
    have hn' : n * es ≤ vl := by nlinarith
    have ih := maskedLoop_getLsbD old t m z hes n p hp hn'
    have hsucc : (n + 1) * es = n * es + es := by ring
    have hmul : es * n = n * es := Nat.mul_comm es n
    by_cases hin : n * es ≤ p ∧ p < n * es + es
    · have hdiv : p / es = n := by
        rw [Nat.div_eq_iff hes]; constructor <;> omega
      have hold : (maskedLoop es old t m z n).getLsbD p = old.getLsbD p := by
        rw [ih, if_neg (by omega)]
      simp only [maskedLoop, hdiv, if_pos (show p < (n + 1) * es by omega)]
      by_cases hm : (m.all fun x => x.getLsbD n) = true
      · rw [if_pos hm, if_pos hm, insertBlock_getLsbD _ _ _ _ hp, hmul, if_pos hin, BitVec.getLsbD_extractLsb']
        have h1 : p - n * es < es := by omega
        have h2 : n * es + (p - n * es) = p := by omega
        simp [h1, h2]
      · rw [if_neg hm, if_neg hm]
        cases z
        · simp only [Bool.false_eq_true, if_false]
          exact hold
        · rw [if_pos rfl, if_pos rfl, insertBlock_getLsbD _ _ _ _ hp, hmul, if_pos hin]
          simp
    · have hstep : (maskedLoop es old t m z (n + 1)).getLsbD p = (maskedLoop es old t m z n).getLsbD p := by
        simp only [maskedLoop]
        split
        · rw [insertBlock_getLsbD _ _ _ _ hp, hmul, if_neg hin]
        · split
          · rw [insertBlock_getLsbD _ _ _ _ hp, hmul, if_neg hin]
          · rfl
      rw [hstep, ih]
      by_cases hlt : p < n * es
      · rw [if_pos hlt, if_pos (show p < (n + 1) * es by omega)]
      · rw [if_neg hlt, if_neg (show ¬p < (n + 1) * es by omega)]

/-- R13: an element with its mask bit on comes from `t`; another one keeps the old bit or becomes 0. -/
theorem masked_getLsbD {vl es : Nat} (old t : BitVec vl) (m : Option Opmask) (z : Bool) (p : Nat) (hp : p < vl)
    (hes : 0 < es) (hdvd : es ∣ vl) : (masked es old t m z).getLsbD p =
      if m.all (·.getLsbD (p / es)) then t.getLsbD p else if z then false else old.getLsbD p := by
  rw [masked, maskedLoop_getLsbD old t m z hes _ p hp (Nat.div_mul_le_self vl es), Nat.div_mul_cancel hdvd, if_pos hp]

/-- R25, R84: an element is written when there is no writemask or its bit of `k[kn]` is on. -/
theorem writemask_all (s : State) (kn : Fin 8) (j : Nat) :
    ((s.writemask kn).all (·.getLsbD j) = true) ↔ (kn = 0 ∨ (s.k.get kn).getLsbD j = true) := by
  by_cases h : kn = 0 <;> simp [State.writemask, h]

/-- Without a mask, MASKED gives its second value (R13). -/
theorem masked_none {vl : Nat} (es : Nat) (old t : BitVec vl) (z : Bool) (hes : 0 < es) (hdvd : es ∣ vl) :
    masked es old t none z = t := by
  apply BitVec.eq_of_getLsbD_eq
  intro p hp
  rw [masked_getLsbD _ _ _ _ _ hp hes hdvd]
  simp

end Sys2Proof.Machine
end

