-- ==== Sys2Proof/Laws/Exec.lean ====
section
/-! SUPPORT. What each shared operation can answer, said once, so that no later proof unfolds it: the checks, the
admitted read, the second source, the shared EVEX shape, and the inversion of `exec`. -/

namespace Sys2Proof.Machine

/-! ### Sequencing -/

@[simp] theorem andThen_next {α β : Type} (a : α) (f : α → Result β) : Result.andThen (.next a) f = f a := rfl
@[simp] theorem andThen_fault {α β : Type} (e : Fault) (f : α → Result β) :
    Result.andThen (.fault e : Result α) f = .fault e := rfl
@[simp] theorem andThen_refused {α β : Type} (e : Refusal) (f : α → Result β) :
    Result.andThen (.refused e : Result α) f = .refused e := rfl

theorem andThen_eq_next {α β : Type} {r : Result α} {f : α → Result β} {b : β} (h : r.andThen f = .next b) :
    ∃ a, r = .next a ∧ f a = .next b := by
  cases r with
  | next a => exact ⟨a, rfl, h⟩
  | fault e => cases h
  | refused e => cases h

theorem andThen_eq_fault {α β : Type} {r : Result α} {f : α → Result β} {e : Fault}
    (h : r.andThen f = .fault e) : r = .fault e ∨ ∃ a, r = .next a ∧ f a = .fault e := by
  cases r with
  | next a => exact .inr ⟨a, rfl, h⟩
  | fault e' => cases h; exact .inl rfl
  | refused e' => cases h

theorem andThen_eq_refused {α β : Type} {r : Result α} {f : α → Result β} {e : Refusal}
    (h : r.andThen f = .refused e) : r = .refused e ∨ ∃ a, r = .next a ∧ f a = .refused e := by
  cases r with
  | next a => exact .inr ⟨a, rfl, h⟩
  | fault e' => cases h
  | refused e' => cases h; exact .inl rfl

/-! ### The checks (R161, R162) -/

/-- The checks answer one of three things, each with its condition. -/
theorem checkForm_cases (evex : Bool) (needs : List Feature) (s : State) :
    (checkForm evex needs s = .next () ∧ s.mode.recognisesVex = true ∧ needs.all s.cfg.has = true ∧
      s.osxsave = true ∧ s.avxEnabled = true ∧ (evex = true → s.avx512Enabled = true) ∧ s.ts = false) ∨
    (checkForm evex needs s = .fault (.deviceNotAvailable s.rip) ∧ s.ts = true) ∨
    (checkForm evex needs s = .fault (.invalidOpcode s.rip) ∧
      (s.mode.recognisesVex && needs.all s.cfg.has && s.osxsave && s.avxEnabled &&
        (!evex || s.avx512Enabled)) = false) := by
  unfold checkForm
  split
  · rename_i h
    simp only [Bool.and_eq_true, Bool.or_eq_true, Bool.not_eq_true'] at h
    split
    · exact .inr (.inl ⟨rfl, ‹_›⟩)
    · refine .inl ⟨rfl, h.1.1.1.1, h.1.1.1.2, h.1.1.2, h.1.2, fun he => ?_, eq_false_of_ne_true ‹¬_›⟩
      rcases h.2 with h2 | h2
      · simp [he] at h2
      · exact h2
  · exact .inr (.inr ⟨rfl, eq_false_of_ne_true ‹¬_›⟩)

/-! ### The second source (R51, R57) -/

/-- An admitted read gives the bytes at its address; every other one stops by one of the named outcomes. -/
theorem memRead_cases (w : Nat) (stack : Bool) (addr : Word64) (s : State) :
    (memRead w stack addr s = .next (Memory.load w s.mem addr.toNat (w / 8)) ∧ addr.toNat + w / 8 ≤ 2 ^ 64 ∧
      s.canonicalRange addr.toNat (w / 8) = true ∧ s.readable addr.toNat (w / 8) = true ∧
      s.acEnabled = false) ∨
    (memRead w stack addr s = .refused .operandWraps ∧ 2 ^ 64 < addr.toNat + w / 8) ∨
    (memRead w stack addr s = .fault (if stack then .stackSegment s.rip else .generalProtection s.rip) ∧
      addr.toNat + w / 8 ≤ 2 ^ 64 ∧ s.canonicalRange addr.toNat (w / 8) = false) ∨
    (memRead w stack addr s = .fault (.pageFault addr (w / 8) s.rip) ∧ addr.toNat + w / 8 ≤ 2 ^ 64 ∧
      s.canonicalRange addr.toNat (w / 8) = true ∧ s.readable addr.toNat (w / 8) = false) ∨
    (memRead w stack addr s = .refused .alignmentChecking ∧ addr.toNat + w / 8 ≤ 2 ^ 64 ∧
      s.canonicalRange addr.toNat (w / 8) = true ∧ s.readable addr.toNat (w / 8) = true ∧
      s.acEnabled = true) := by
  simp only [memRead, raise]
  by_cases h1 : addr.toNat + w / 8 > 2 ^ 64
  · exact .inr (.inl ⟨if_pos h1, h1⟩)
  · rw [if_neg h1]
    have h1' := Nat.not_lt.mp h1
    by_cases h2 : s.canonicalRange addr.toNat (w / 8) = false
    · refine .inr (.inr (.inl ⟨?_, h1', h2⟩))
      rw [if_pos h2]
      cases stack <;> rfl
    · rw [if_neg h2]
      have h2' := eq_true_of_ne_false h2
      by_cases h3 : s.readable addr.toNat (w / 8) = false
      · exact .inr (.inr (.inr (.inl ⟨if_pos h3, h1', h2', h3⟩)))
      · rw [if_neg h3]
        have h3' := eq_true_of_ne_false h3
        by_cases h4 : s.acEnabled = true
        · exact .inr (.inr (.inr (.inr ⟨if_pos h4, h1', h2', h3', h4⟩)))
        · exact .inl ⟨if_neg h4, h1', h2', h3', eq_false_of_ne_true h4⟩

@[simp] theorem readSrc2_reg {nreg : Nat} (w n : Nat) (toVec : Fin nreg → Fin 32) (p : Prefixes) (r : Fin nreg)
    (len : Nat) (s : State) : readSrc2 w n toVec p (.reg r) len s = .next (s.view w (toVec r)) := rfl

theorem readSrc2_mem {nreg : Nat} (w n : Nat) (toVec : Fin nreg → Fin 32) (p : Prefixes) (m : MemOp) (len : Nat)
    (s : State) (h : s.mode = .bits64) : readSrc2 w n toVec p (.mem m) len s =
      memRead w (inStackSegment p m) (linearAddress p n m len s) s := if_pos h

theorem readSrc2_mem_outside64 {nreg : Nat} (w n : Nat) (toVec : Fin nreg → Fin 32) (p : Prefixes) (m : MemOp)
    (len : Nat) (s : State) (h : s.mode ≠ .bits64) : readSrc2 w n toVec p (.mem m) len s =
      .refused .addressingOutside64BitMode := if_neg h

/-! ### Launch premises (R191, R28) -/

theorem acEnabled_iff (s : State) : s.acEnabled = true ↔ s.AlignmentChecking := by
  simp [State.acEnabled, State.am, State.ac, State.AlignmentChecking, and_assoc]

theorem textFetchable_iff (s : State) : s.textFetchable = true ↔ s.ProgramText := by
  simp [State.textFetchable, State.ProgramText]

theorem inText_iff (s : State) : s.text.covers s.rip.toNat = true ↔
    s.text.base ≤ s.rip.toNat ∧ s.rip.toNat < s.text.base + s.text.size := by
  simp [Region.covers]

/-- The launch premises as `step` tests them and as statements speak of them. -/
theorem launchRefusal_eq_none {s : State} : s.launchRefusal = none ↔ s.Steps := by
  constructor
  · intro h
    unfold State.launchRefusal at h
    split_ifs at h with h1 h2 h3 h4 h5 h6
    exact ⟨not_not.1 h1, fun hc => h2 ((acEnabled_iff s).2 hc), eq_false_of_ne_true h3,
      (textFetchable_iff s).1 (eq_true_of_ne_false h4), (inText_iff s).1 (eq_true_of_ne_false h5),
      fun hr => not_not.1 fun hb => h6 ⟨hr, hb⟩⟩
  · rintro ⟨h1, h2, h3, h4, h5, h6⟩
    have h2' : s.acEnabled = false := eq_false_of_ne_true fun hc => h2 ((acEnabled_iff s).1 hc)
    simp [State.launchRefusal, h1, h2', h3, (textFetchable_iff s).2 h4, (inText_iff s).2 h5]
    exact h6

/-! ### The meanings -/

/-- The shared EVEX shape, once its checks pass and its second source is read. -/
theorem evexInsert_of {vl w es n : Nat} {needs : List Feature} {a : EvexArgs} {s : State} {b : BitVec w}
    (h1 : checkEvex needs a.kn a.z s = .next ()) (h2 : readSrc2 w n id a.pre a.src2 a.len s = .next b) :
    evexInsert vl w es n needs a s =
      .next ((s.writeVec a.d (masked es (s.view vl a.d) (insertBlock (s.view vl a.s1) b (sel vl w a.imm8))
        (s.writemask a.kn) a.z)).advance a.len) := by
  simp only [evexInsert, h1, h2, andThen_next]

/-- VINSERTF128, once its checks pass and its second source is read. -/
theorem execVinsertf128_of {a : VexArgs} {s : State} {b : BitVec 128}
    (h1 : checkForm false [.avx] s = .next ())
    (h2 : readSrc2 128 1 vexReg a.pre a.src2 a.len s = .next b) :
    execVinsertf128 a s =
      .next ((s.writeVec (vexReg a.d)
        (insertBlock (s.view 256 (vexReg a.s1)) b (sel 256 128 a.imm8))).advance a.len) := by
  simp only [execVinsertf128, h1, h2, andThen_next]

/-- The shared EVEX shape completes in one way only: its destination and `rip` written, nothing else. -/
theorem evexInsert_next {vl w es n : Nat} {needs : List Feature} {a : EvexArgs} {s t : State}
    (h : evexInsert vl w es n needs a s = .next t) :
    checkEvex needs a.kn a.z s = .next () ∧
      ∃ r : BitVec vl, t = (s.writeVec a.d r).advance a.len := by
  obtain ⟨_, h1, h⟩ := andThen_eq_next h
  obtain ⟨b, h2, h⟩ := andThen_eq_next h
  cases h
  exact ⟨h1, _, rfl⟩

/-! ### One shape for all seven meanings

`exec i` is three things in a row: the checks of `i`, its second source, and the value it writes. A statement over all
instructions is proved once over this shape. -/

/-- ES, the element size of a form; for the VEX form, which reads no mask, any divisor of its length serves. -/
def elementSize : Instr → Nat
  | .vinsertf128 _ => 64
  | .vinsertf32x4Ymm _ => 32
  | .vinsertf32x4Zmm _ => 32
  | .vinsertf64x2Ymm _ => 64
  | .vinsertf64x2Zmm _ => 64
  | .vinsertf32x8 _ => 32
  | .vinsertf64x4 _ => 64

/-- The checks of a form. -/
def checkOf (i : Instr) (s : State) : Result Unit :=
  if i.row.evex then checkEvex i.row.needs i.args.kn i.args.z s else checkForm false i.row.needs s

/-- The second source of a form. -/
def sourceOf (i : Instr) (s : State) : Result (BitVec i.row.w) :=
  readSrc2 i.row.w i.row.n id i.args.pre i.args.src2 i.len s

/-- The VL bits a form writes, with `b` its second source. -/
def resultOf (i : Instr) (s : State) (b : BitVec i.row.w) : BitVec i.row.vl :=
  masked (elementSize i) (s.view i.row.vl i.args.d)
    (insertBlock (s.view i.row.vl i.args.s1) b (sel i.row.vl i.row.w i.args.imm8)) (s.writemask i.args.kn) i.args.z

/-- The divisions between the lengths of a row. -/
theorem row_lengths (i : Instr) : 0 < elementSize i ∧ elementSize i ∣ i.row.vl ∧ 0 < i.row.w ∧ i.row.w ∣ i.row.vl ∧
    i.row.vl ≤ 512 ∧ 8 ∣ i.row.w ∧ i.row.w ≤ i.row.vl := by
  cases i <;> (simp only [Instr.row, elementSize]; decide)

/-- `exec` in three parts. -/
theorem exec_shape (i : Instr) (s : State) :
    exec i s = (checkOf i s).andThen fun _ => (sourceOf i s).andThen fun b =>
      .next (s.after i ((resultOf i s b).setWidth 512)) := by
  cases i with
  | vinsertf128 a =>
    have hsrc : readSrc2 128 1 vexReg a.pre a.src2 a.len s = sourceOf (.vinsertf128 a) s := by
      obtain ⟨pre, d, s1, src2, imm8⟩ := a
      cases src2 <;> rfl
    have hout (b : BitVec 128) : resultOf (.vinsertf128 a) s b =
        insertBlock (s.view 256 (vexReg a.s1)) b (sel 256 128 a.imm8) :=
      masked_none 64 (s.view 256 (vexReg a.d)) _ false (by decide) (by decide)
    show execVinsertf128 a s = _
    simp only [execVinsertf128, hsrc]
    refine congrArg ((checkForm false [.avx] s).andThen) (funext fun _ => ?_)
    refine congrArg ((sourceOf (.vinsertf128 a) s).andThen) (funext fun b => ?_)
    rw [hout b]
    rfl
  | vinsertf32x4Ymm a => rfl
  | vinsertf32x4Zmm a => rfl
  | vinsertf64x2Ymm a => rfl
  | vinsertf64x2Zmm a => rfl
  | vinsertf32x8 a => rfl
  | vinsertf64x4 a => rfl

/-- The inversion of `exec`: what completes writes the destination register and `rip` of its state and nothing
else. -/
theorem exec_next {i : Instr} {s t : State} (h : exec i s = .next t) : ∃ r : VecReg, t = s.after i r := by
  rw [exec_shape] at h
  obtain ⟨_, _, h⟩ := andThen_eq_next h
  obtain ⟨b, _, h⟩ := andThen_eq_next h
  cases h
  exact ⟨_, rfl⟩

/-- The inversion of `step`: a next state comes from a decoded instruction, in a state no launch premise refuses. -/
theorem step_next {s t : State} (h : step s = .next t) :
    s.Steps ∧ ∃ i rest, decode s.fetch = .instr i rest ∧ exec i s = .next t := by
  unfold step at h
  split at h
  · cases h
  · refine ⟨launchRefusal_eq_none.1 ‹_›, ?_⟩
    split at h
    · exact ⟨_, _, ‹_›, h⟩
    · cases h
    · rename_i why _
      cases why <;> simp only [refuseBytes] at h
      · split at h <;> cases h
      all_goals cases h

end Sys2Proof.Machine
end

