-- ==== Sys2Proof/Laws/PerInstr.lean ====
section
/-! SUPPORT. Facts about each instruction as syntax, one lemma per constructor (LAWS.json): the encoder writes as
many bytes as `Instr.len` says, between 6 and 14 (`spec/30_encoding.md` R89; R97 allows 15). -/

namespace Sys2Proof

theorem Prefixes.bytes_length (p : Prefixes) : p.bytes.length = p.len := by
  obtain ⟨seg, asz⟩ := p
  cases seg <;> cases asz <;> rfl

theorem Prefixes.len_le (p : Prefixes) : p.len ≤ 2 := by
  obtain ⟨seg, asz⟩ := p
  cases seg <;> cases asz <;> simp [Prefixes.len]

theorem Disp.bytes_length (d : Disp) : d.bytes.length = d.len := by cases d <;> rfl

theorem Disp.len_le (d : Disp) : d.len ≤ 4 := by cases d <;> simp [Disp.len]

theorem Src2.trail_length {nreg : Nat} (o : Src2 nreg) : o.trail.length = o.len := by
  cases o with
  | reg n => rfl
  | mem m => cases m <;> simp [Src2.trail, Src2.len, MemOp.len, Disp.bytes_length, disp32Bytes, Nat.add_comm]

theorem Src2.len_le {nreg : Nat} (o : Src2 nreg) : o.len ≤ 5 := by
  cases o with
  | reg n => simp [Src2.len]
  | mem m =>
    cases m with
    | base b disp => exact (Disp.len_le disp).trans (by omega)
    | ripRel d => simp [Src2.len, MemOp.len]
    | sib scale index b disp =>
      have := Disp.len_le disp
      simp only [Src2.len, MemOp.len]; omega
    | sibNoBase scale index d => simp [Src2.len, MemOp.len]

theorem encodeVex_length (a : VexArgs) : (encodeVex a).length = a.len := by
  simp only [encodeVex, operandBytes, List.length_append, List.length_cons, List.length_nil, Prefixes.bytes_length,
    Src2.trail_length, VexArgs.len]
  omega

theorem encodeEvex_length (op : Byte) (w : Bool) (ll : BitVec 2) (a : EvexArgs) :
    (encodeEvex op w ll a).length = a.len := by
  simp only [encodeEvex, operandBytes, List.length_append, List.length_cons, List.length_nil, Prefixes.bytes_length,
    Src2.trail_length, EvexArgs.len]
  omega

theorem VexArgs.len_bounds (a : VexArgs) : 6 ≤ a.len ∧ a.len ≤ 14 := by
  have h1 := Prefixes.len_le a.pre
  have h2 := Src2.len_le a.src2
  simp only [VexArgs.len]
  omega

theorem EvexArgs.len_bounds (a : EvexArgs) : 6 ≤ a.len ∧ a.len ≤ 14 := by
  have h1 := Prefixes.len_le a.pre
  have h2 := Src2.len_le a.src2
  simp only [EvexArgs.len]
  omega

end Sys2Proof

namespace Sys2Proof.Laws.EncodedLength

/-- The encoder writes `len` bytes, at least 6 and at most 14. -/
def Statement (i : Instr) : Prop := (encode i).length = i.len ∧ 6 ≤ i.len ∧ i.len ≤ 14

theorem vinsertf128 (a : VexArgs) : Statement (.vinsertf128 a) := ⟨encodeVex_length a, a.len_bounds⟩
theorem vinsertf32x4Ymm (a : EvexArgs) : Statement (.vinsertf32x4Ymm a) := ⟨encodeEvex_length _ _ _ a, a.len_bounds⟩
theorem vinsertf32x4Zmm (a : EvexArgs) : Statement (.vinsertf32x4Zmm a) := ⟨encodeEvex_length _ _ _ a, a.len_bounds⟩
theorem vinsertf64x2Ymm (a : EvexArgs) : Statement (.vinsertf64x2Ymm a) := ⟨encodeEvex_length _ _ _ a, a.len_bounds⟩
theorem vinsertf64x2Zmm (a : EvexArgs) : Statement (.vinsertf64x2Zmm a) := ⟨encodeEvex_length _ _ _ a, a.len_bounds⟩
theorem vinsertf32x8 (a : EvexArgs) : Statement (.vinsertf32x8 a) := ⟨encodeEvex_length _ _ _ a, a.len_bounds⟩
theorem vinsertf64x4 (a : EvexArgs) : Statement (.vinsertf64x4 a) := ⟨encodeEvex_length _ _ _ a, a.len_bounds⟩

end Sys2Proof.Laws.EncodedLength
end

