-- ==== Sys2Proof/Tests/Slice0.lean ====
section
/-! SUPPORT. The model's own tests. Expected values come from `spec/95_test_vectors.md` (the vector is named at each
test) or are computed by hand from a rule. The last part shows, for every obligation with hypotheses, a state and
operands that meet them. -/

namespace Sys2Proof.Tests

open Sys2Proof.Machine

-- One theorem after the other: dozens of threads at once would each take stack space.
set_option Elab.async false

/-! ### A small machine -/

/-- The patterns of `spec/95_test_vectors.md` section 0. -/
def src1 : VecReg :=
  0x7F7E7D7C7B7A797877767574737271706F6E6D6C6B6A696867666564636261605F5E5D5C5B5A595857565554535251504F4E4D4C4B4A49484746454443424140
/-- The 256-bit SRC2 pattern under FF bytes. -/
def src2 : VecReg :=
  0xFFFFFFFFFFFFFFFFFFFFFFFFFFFFFFFFFFFFFFFFFFFFFFFFFFFFFFFFFFFFFFFF9F9E9D9C9B9A999897969594939291908F8E8D8C8B8A89888786858483828180
def dold : VecReg :=
  0xFFFEFDFCFBFAF9F8F7F6F5F4F3F2F1F0EFEEEDECEBEAE9E8E7E6E5E4E3E2E1E0DFDEDDDCDBDAD9D8D7D6D5D4D3D2D1D0CFCECDCCCBCAC9C8C7C6C5C4C3C2C1C0

/-- Memory with `mem[1000 + i] = 80 + i` for i = 0 to 31 (section 4.2). -/
def memory : Memory := Memory.writeBytes [] 0x1000 ((List.range 32).map fun i => BitVec.ofNat 8 (0x80 + i))

/-- The launch state with DOLD, SRC1 and SRC2 in v[0], v[1] and v[2], `mask` in k[1], 1000 in x[0], and `memory`. -/
def machine (mask : Opmask) : State :=
  { State.reset with
    v := (((Vector.replicate 32 0).set 0 dold).set 1 src1).set 2 src2
    k := (Vector.replicate 8 0).set 1 mask
    x := (Vector.replicate 16 0).set 0 0x1000
    rip := 0x401000
    mem := memory }

/-- `s` with bytes placed at `rip`, launched as the whole program. -/
def placed (bytes : List Byte) (s : State) : State :=
  { s with
    mem := s.mem.writeBytes s.rip.toNat bytes
    text := { base := s.rip.toNat, size := bytes.length } }

/-- What a test looks at in an outcome: one vector register and `rip`, the fault, or the refusal. -/
inductive Seen where
  | next (v : VecReg) (rip : Word64)
  | fault (f : Fault)
  | refused (r : Refusal)
deriving DecidableEq, Repr

def result (n : Fin 32) : Host.Outcome State Fault Refusal → Seen
  | .next t => .next (t.v.get n) t.rip
  | .fault f => .fault f
  | .refused r => .refused r

/-- What one step from `bytes` does to register `n`. -/
def run (n : Fin 32) (bytes : List Byte) (s : State) : Seen := result n (step (placed bytes s))

def noPrefix : Prefixes := { seg := none, asz32 := false }

/-- v[0] <- v[1], v[2], imm8. -/
def vexReg012 (imm8 : Byte) : VexArgs := { pre := noPrefix, d := 0, s1 := 1, src2 := .reg 2, imm8 := imm8 }
def evexReg012 (imm8 : Byte) (kn : Fin 8) (z : Bool) : EvexArgs :=
  { pre := noPrefix, d := 0, s1 := 1, src2 := .reg 2, imm8 := imm8, kn := kn, z := z }
/-- v[0] <- v[1], memory, imm8. -/
def vexMem (pre : Prefixes) (m : MemOp) (imm8 : Byte) : VexArgs :=
  { pre := pre, d := 0, s1 := 1, src2 := .mem m, imm8 := imm8 }
def evexMem (pre : Prefixes) (m : MemOp) (imm8 : Byte) (kn : Fin 8) (z : Bool) : EvexArgs :=
  { pre := pre, d := 0, s1 := 1, src2 := .mem m, imm8 := imm8, kn := kn, z := z }
/-- [rax] -/
def atRax : MemOp := .base 0 .absent

/-! ### Well-formedness: each check refuses an ill-formed term -/

/-- rm = 100 announces a SIB byte. -/
theorem test_wf_bare_base_rsp : (Instr.vinsertf128 (vexMem noPrefix (.base 4 (.disp8 0)) 0)).wellFormed = false := by
  decide
theorem test_wf_bare_base_r12 :
    (Instr.vinsertf64x4 (evexMem noPrefix (.base 12 .absent) 0 0 false)).wellFormed = false := by decide
/-- A base with low bits 101 needs a displacement. -/
theorem test_wf_bare_base_rbp : (Instr.vinsertf128 (vexMem noPrefix (.base 5 .absent) 0)).wellFormed = false := by
  decide
theorem test_wf_sib_base_r13 :
    (Instr.vinsertf32x8 (evexMem noPrefix (.sib .s1 none 13 .absent) 0 0 false)).wellFormed = false := by decide
/-- Register 4 is no index. -/
theorem test_wf_index_rsp :
    (Instr.vinsertf32x4Ymm (evexMem noPrefix (.sib .s2 (some 4) 0 .absent) 0 0 false)).wellFormed = false := by decide
theorem test_wf_index_rsp_no_base :
    (Instr.vinsertf32x4Zmm (evexMem noPrefix (.sibNoBase .s2 (some 4) 0) 0 0 false)).wellFormed = false := by decide
/-- Zeroing needs a mask. -/
theorem test_wf_zeroing_without_mask : (Instr.vinsertf64x2Zmm (evexReg012 0 0 true)).wellFormed = false := by decide
theorem test_wf_zeroing_with_mask : (Instr.vinsertf64x2Zmm (evexReg012 0 7 true)).wellFormed = true := by decide

/-! ### Decoding (section 3.1; the bit fields are those of section 3.2) -/

/-- E1, its bytes written out bit by bit. -/
theorem test_decode_vinsertf128_bits :
    decode [0b11000100, 0b11100011, 0b01110101, 0b00011000, 0b11000010, 0b00000001] =
      .instr (.vinsertf128 (vexReg012 1)) [] := by decide
/-- E2: registers 8, 15, 9. -/
theorem test_decode_vinsertf128_high :
    decode [0xC4, 0x43, 0x05, 0x18, 0xC1, 0x00] =
      .instr (.vinsertf128 { pre := noPrefix, d := 8, s1 := 15, src2 := .reg 9, imm8 := 0 }) [] := by decide
/-- E6: [r12+r13*8+0x1000]. -/
theorem test_decode_vinsertf128_sib :
    decode [0xC4, 0x03, 0x25, 0x18, 0x94, 0xEC, 0x00, 0x10, 0x00, 0x00, 0xFF] =
      .instr (.vinsertf128 { pre := noPrefix, d := 10, s1 := 11, src2 := .mem (.sib .s8 (some 13) 12 (.disp32 0x1000)),
                             imm8 := 0xFF }) [] := by decide
/-- E8: absolute address, SIB with neither base nor index. -/
theorem test_decode_vinsertf128_absolute :
    decode [0xC4, 0xE3, 0x75, 0x18, 0x04, 0x25, 0x00, 0x10, 0x00, 0x00, 0x01] =
      .instr (.vinsertf128 (vexMem noPrefix (.sibNoBase .s1 none 0x1000) 1)) [] := by decide
/-- E11, its bytes written out bit by bit. -/
theorem test_decode_vinsertf32x4_ymm_bits :
    decode [0b01100010, 0b11110011, 0b01110101, 0b00101000, 0b00011000, 0b11000010, 0b00000001] =
      .instr (.vinsertf32x4Ymm (evexReg012 1 0 false)) [] := by decide
/-- E13, its bytes written out bit by bit. -/
theorem test_decode_vinsertf32x4_zmm_bits :
    decode [0b01100010, 0b11110011, 0b01110101, 0b11001001, 0b00011000, 0b11000010, 0b00000010] =
      .instr (.vinsertf32x4Zmm (evexReg012 2 1 true)) [] := by decide
/-- E22: rip-relative. -/
theorem test_decode_vinsertf64x2_ymm :
    decode [0x62, 0xF3, 0xED, 0x28, 0x18, 0x0D, 0xF0, 0xFF, 0xFF, 0xFF, 0x00] =
      .instr (.vinsertf64x2Ymm { pre := noPrefix, d := 1, s1 := 2, src2 := .mem (.ripRel 0xFFFFFFF0), imm8 := 0,
                                 kn := 0, z := false }) [] := by decide
/-- E15, its bytes written out bit by bit. -/
theorem test_decode_vinsertf64x2_zmm_bits :
    decode [0b01100010, 0b00000011, 0b10001101, 0b11000111, 0b00011000, 0b11111101, 0b00000011] =
      .instr (.vinsertf64x2Zmm { pre := noPrefix, d := 31, s1 := 30, src2 := .reg 29, imm8 := 3, kn := 7,
                                 z := true }) [] := by decide
/-- E21, its bytes written out bit by bit. -/
theorem test_decode_vinsertf32x8_bits :
    decode [0b01100010, 0b00110011, 0b00110101, 0b01001011, 0b00011010, 0b01000100, 0b10001011, 0b00000010,
            0b00000001] =
      .instr (.vinsertf32x8 { pre := noPrefix, d := 8, s1 := 9, src2 := .mem (.sib .s4 (some 9) 3 (.disp8 2)), imm8 := 1,
                              kn := 3, z := false }) [] := by decide
/-- E20: [rax-32]. -/
theorem test_decode_vinsertf64x4 :
    decode [0x62, 0xF3, 0xF5, 0x48, 0x1A, 0x40, 0xFF, 0x00] =
      .instr (.vinsertf64x4 (evexMem noPrefix (.base 0 (.disp8 0xFF)) 0 0 false)) [] := by decide
/-- E26 and E27: a GS override, a 67 byte; a byte after the instruction stays. -/
theorem test_decode_legacy_bytes :
    decode [0x65, 0x62, 0xF3, 0x75, 0x48, 0x18, 0x00, 0x01, 0x90] =
      .instr (.vinsertf32x4Zmm (evexMem { seg := some .gs, asz32 := false } atRax 1 0 false)) [0x90] ∧
    decode [0x67, 0x62, 0xF3, 0x75, 0x48, 0x18, 0x00, 0x01] =
      .instr (.vinsertf32x4Zmm (evexMem { seg := none, asz32 := true } atRax 1 0 false)) [] := by decide
/-- E29, E30 and E31: r12 and r13 as base, r12 as index. -/
theorem test_decode_r12_r13 :
    decode [0x62, 0xD3, 0x75, 0x48, 0x18, 0x04, 0x24, 0x01] =
      .instr (.vinsertf32x4Zmm (evexMem noPrefix (.sib .s1 none 12 .absent) 1 0 false)) [] ∧
    decode [0x62, 0xD3, 0x75, 0x48, 0x18, 0x45, 0x00, 0x01] =
      .instr (.vinsertf32x4Zmm (evexMem noPrefix (.base 13 (.disp8 0)) 1 0 false)) [] ∧
    decode [0x62, 0xB3, 0x75, 0x48, 0x18, 0x04, 0x60, 0x01] =
      .instr (.vinsertf32x4Zmm (evexMem noPrefix (.sib .s2 (some 12) 0 .absent) 1 0 false)) [] := by decide
/-- BE1 and BE4 to BE11 raise #UD. -/
theorem test_decode_invalid_opcode :
    (∀ bs ∈ ([[0xC4, 0xE3, 0x71, 0x18, 0xC2, 0x01], [0x62, 0xF3, 0x75, 0xC8, 0x18, 0xC2, 0x02],
              [0x62, 0xF3, 0x75, 0x58, 0x18, 0xC2, 0x02], [0x62, 0xF3, 0x75, 0x08, 0x18, 0xC2, 0x02],
              [0x62, 0xF3, 0x75, 0x68, 0x18, 0xC2, 0x02], [0x62, 0xF3, 0x75, 0x28, 0x1A, 0xC2, 0x01],
              [0x62, 0xF3, 0xF5, 0x28, 0x1A, 0xC2, 0x01], [0x62, 0xF7, 0x75, 0x48, 0x18, 0xC2, 0x03],
              [0x62, 0xF3, 0x71, 0x48, 0x18, 0xC2, 0x03]] : List (List Byte)), decode bs = .invalidOpcode) := by decide
/-- BE12 to BE15 raise #UD; BE3, BE16, BE17, BE18 are refused. -/
theorem test_decode_legacy_rejected :
    decode [0xF0, 0xC4, 0xE3, 0x75, 0x18, 0x00, 0x01] = .invalidOpcode ∧
    decode [0x66, 0x62, 0xF3, 0x75, 0x48, 0x18, 0xC2, 0x03] = .invalidOpcode ∧
    decode [0xF3, 0x62, 0xF3, 0x75, 0x48, 0x18, 0xC2, 0x03] = .invalidOpcode ∧
    decode [0x48, 0xC4, 0xE3, 0x75, 0x18, 0xC2, 0x01] = .invalidOpcode ∧
    decode [0xC4, 0xE3, 0xF5, 0x18, 0xC2, 0x01] = .refused .vexW1 ∧
    decode [0x65, 0x64, 0xC4, 0xE3, 0x75, 0x18, 0x00, 0x01] = .refused .repeatedPrefix ∧
    decode [0xC5, 0xF5, 0x18, 0xC2, 0x01] = .refused .notThisFamily ∧
    decode [0xC4, 0xE3, 0x75, 0x38, 0xC2, 0x01] = .refused .notThisFamily := by decide
/-- The encoder gives E6, E15 and E21 back. -/
theorem test_encode :
    encode (.vinsertf128 { pre := noPrefix, d := 10, s1 := 11, src2 := .mem (.sib .s8 (some 13) 12 (.disp32 0x1000)),
                           imm8 := 0xFF }) =
      [0xC4, 0x03, 0x25, 0x18, 0x94, 0xEC, 0x00, 0x10, 0x00, 0x00, 0xFF] ∧
    encode (.vinsertf64x2Zmm { pre := noPrefix, d := 31, s1 := 30, src2 := .reg 29, imm8 := 3, kn := 7, z := true }) =
      [0x62, 0x03, 0x8D, 0xC7, 0x18, 0xFD, 0x03] ∧
    encode (.vinsertf32x8 { pre := noPrefix, d := 8, s1 := 9, src2 := .mem (.sib .s4 (some 9) 3 (.disp8 2)), imm8 := 1,
                            kn := 3, z := false }) =
      [0x62, 0x33, 0x35, 0x4B, 0x1A, 0x44, 0x8B, 0x02, 0x01] := by decide

/-! ### One step from the bytes (sections 2 and 4) -/

/-- V2. -/
theorem test_step_vinsertf128 :
    run 0 [0xC4, 0xE3, 0x75, 0x18, 0xC2, 0x01] (machine 0) =
      .next 0x8F8E8D8C8B8A898887868584838281804F4E4D4C4B4A49484746454443424140 0x401006 := by decide +kernel
/-- Section 4.2: d = s1 = 3, [rax], the register holding DOLD before. -/
theorem test_step_vinsertf128_memory :
    run 3 [0xC4, 0xE3, 0x65, 0x18, 0x18, 0x01]
        { machine 0 with v := (Vector.replicate 32 0).set 3 dold } =
      .next 0x8F8E8D8C8B8A89888786858483828180CFCECDCCCBCAC9C8C7C6C5C4C3C2C1C0 0x401006 := by decide +kernel
/-- V12, merging under A5. -/
theorem test_step_vinsertf32x4_ymm_merging :
    run 0 [0x62, 0xF3, 0x75, 0x29, 0x18, 0xC2, 0x01] (machine 0xA5) =
      .next 0x8F8E8D8CDBDAD9D887868584D3D2D1D0CFCECDCC4B4A4948C7C6C5C443424140 0x401007 := by decide +kernel
/-- V13, zeroing under A5. -/
theorem test_step_vinsertf32x4_ymm_zeroing :
    run 0 [0x62, 0xF3, 0x75, 0xA9, 0x18, 0xC2, 0x01] (machine 0xA5) =
      .next 0x8F8E8D8C000000008786858400000000000000004B4A49480000000043424140 0x401007 := by decide +kernel
/-- V29, merging under 0F0F. -/
theorem test_step_vinsertf32x4_zmm :
    run 0 [0x62, 0xF3, 0x75, 0x49, 0x18, 0xC2, 0x02] (machine 0x0F0F) =
      .next 0xFFFEFDFCFBFAF9F8F7F6F5F4F3F2F1F08F8E8D8C8B8A89888786858483828180DFDEDDDCDBDAD9D8D7D6D5D4D3D2D1D04F4E4D4C4B4A49484746454443424140 0x401007 := by decide +kernel
/-- V22's value from memory with M8's disp8 scaled by 16: x[0] + 10 = 1000. -/
theorem test_step_vinsertf32x4_zmm_memory :
    run 0 [0x62, 0xF3, 0x75, 0x48, 0x18, 0x40, 0x01, 0x01]
        { machine 0 with x := (Vector.replicate 16 0).set 0 0xFF0 } =
      .next 0x7F7E7D7C7B7A797877767574737271706F6E6D6C6B6A696867666564636261608F8E8D8C8B8A898887868584838281804F4E4D4C4B4A49484746454443424140 0x401008 := by decide +kernel
/-- V39, merging under 06. -/
theorem test_step_vinsertf64x2_ymm :
    run 0 [0x62, 0xF3, 0xF5, 0x29, 0x18, 0xC2, 0x01] (machine 0x06) =
      .next 0xDFDEDDDCDBDAD9D887868584838281804F4E4D4C4B4A4948C7C6C5C4C3C2C1C0 0x401007 := by decide +kernel
/-- P3, instruction 1: rip-relative, zeroing, mask F6. -/
theorem test_step_vinsertf64x2_ymm_rip :
    run 1 [0x62, 0xF3, 0xED, 0xA9, 0x18, 0x0D, 0xF5, 0x0F, 0x00, 0x00, 0x01]
        { machine 0xF6 with
          v := (Vector.replicate 32 0).set 2 src1
          mem := Memory.writeBytes [] 0x402000 ((List.range 16).map fun i => BitVec.ofNat 8 (0xE0 + i)) } =
      .next 0xE7E6E5E4E3E2E1E04F4E4D4C4B4A49480000000000000000 0x40100B := by decide +kernel
/-- V52, merging under C3. -/
theorem test_step_vinsertf64x2_zmm :
    run 0 [0x62, 0xF3, 0xF5, 0x49, 0x18, 0xC2, 0x03] (machine 0xC3) =
      .next 0x8F8E8D8C8B8A89888786858483828180EFEEEDECEBEAE9E8E7E6E5E4E3E2E1E0DFDEDDDCDBDAD9D8D7D6D5D4D3D2D1D04F4E4D4C4B4A49484746454443424140 0x401007 := by decide +kernel
/-- V62, merging under FF0F. -/
theorem test_step_vinsertf32x8 :
    run 0 [0x62, 0xF3, 0x75, 0x49, 0x1A, 0xC2, 0x01] (machine 0xFF0F) =
      .next 0x9F9E9D9C9B9A999897969594939291908F8E8D8C8B8A89888786858483828180DFDEDDDCDBDAD9D8D7D6D5D4D3D2D1D04F4E4D4C4B4A49484746454443424140 0x401007 := by decide +kernel
/-- V64, zeroing under 8001, the second source the same bytes in memory. -/
theorem test_step_vinsertf32x8_memory :
    run 0 [0x62, 0xF3, 0x75, 0xC9, 0x1A, 0x00, 0x00] (machine 0x8001) =
      .next 0x7F7E7D7C000000000000000000000000000000000000000000000000000000000000000000000000000000000000000000000000000000000000000083828180 0x401007 := by decide +kernel
/-- V73, merging under 3C. -/
theorem test_step_vinsertf64x4 :
    run 0 [0x62, 0xF3, 0xF5, 0x49, 0x1A, 0xC2, 0x01] (machine 0x3C) =
      .next 0xFFFEFDFCFBFAF9F8F7F6F5F4F3F2F1F08F8E8D8C8B8A898887868584838281805F5E5D5C5B5A59585756555453525150CFCECDCCCBCAC9C8C7C6C5C4C3C2C1C0 0x401007 := by decide +kernel
/-- V72's value (imm8 = FF) from memory at [rax-32] (E20's disp8, M10). -/
theorem test_step_vinsertf64x4_memory :
    run 0 [0x62, 0xF3, 0xF5, 0x48, 0x1A, 0x40, 0xFF, 0xFF]
        { machine 0 with x := (Vector.replicate 16 0).set 0 0x1020 } =
      .next 0x9F9E9D9C9B9A999897969594939291908F8E8D8C8B8A898887868584838281805F5E5D5C5B5A595857565554535251504F4E4D4C4B4A49484746454443424140 0x401008 := by decide +kernel

/-! ### Addresses (section 4.1) -/

/-- `machine` with the general register `n` at `value`. -/
def withReg (n : Fin 16) (value : Word64) : State := { machine 0 with x := (machine 0).x.set n value }

/-- M4, M5, M6, M9, M11, M12. -/
theorem test_address_forms :
    linearAddress noPrefix 1 (.sib .s8 (some 13) 12 (.disp32 0x1000)) 11
      { machine 0 with x := ((Vector.replicate 16 0).set 12 0x10000).set 13 0x20 } = 0x11100 ∧
    linearAddress noPrefix 1 (.ripRel 0x20) 10 (machine 0) = 0x40102A ∧
    linearAddress noPrefix 1 (.sibNoBase .s1 none 0x1000) 11 (machine 0) = 0x1000 ∧
    linearAddress noPrefix 16 (.base 0 (.disp32 8)) 11 (withReg 0 0x2000) = 0x2008 ∧
    linearAddress noPrefix 32 (.sib .s4 (some 9) 3 (.disp8 2)) 9
      { machine 0 with x := ((Vector.replicate 16 0).set 3 0x3000).set 9 0x10 } = 0x3080 ∧
    linearAddress noPrefix 16 (.ripRel 0xFFFFFFF0) 11 (machine 0) = 0x400FFB := by decide +kernel
/-- M13, M14, M15, M16, M17, M18, M19: disp8 ends, GS base, the 67 byte, wrap-around, index r12. -/
theorem test_address_corners :
    linearAddress noPrefix 16 (.base 0 (.disp8 0x7F)) 8 (withReg 0 0x2000) = 0x27F0 ∧
    linearAddress noPrefix 16 (.base 0 (.disp8 0x80)) 8 (withReg 0 0x2000) = 0x1800 ∧
    linearAddress { seg := some .gs, asz32 := false } 16 atRax 8 { withReg 0 0x100 with gsBase := 0x70000000 } =
      0x70000100 ∧
    linearAddress { seg := none, asz32 := true } 16 atRax 8 (withReg 0 0xFFFFFFFF00001000) = 0x1000 ∧
    linearAddress { seg := none, asz32 := true } 16 (.base 0 (.disp8 1)) 9 (withReg 0 0xFFFFFFF8) = 8 ∧
    linearAddress noPrefix 16 (.base 0 (.disp8 1)) 8 (withReg 0 0xFFFFFFFFFFFFFFF0) = 0 ∧
    linearAddress noPrefix 16 (.sib .s2 (some 12) 0 .absent) 8
      { machine 0 with x := ((Vector.replicate 16 0).set 0 0x5000).set 12 0x18 } = 0x5030 := by decide +kernel

/-! ### Faults and refusals (sections 4.3 and 5) -/

/-- vinsertf128 ymm3, ymm3, [rax], 1 (MF1). -/
def mf1 : List Byte := [0xC4, 0xE3, 0x65, 0x18, 0x18, 0x01]

/-- MF1 to MF5, MF11. -/
theorem test_fault_addresses :
    run 0 mf1 (withReg 0 0x0100000000000000) = .fault (.generalProtection 0x401000) ∧
    run 0 [0xC4, 0xE3, 0x6D, 0x18, 0x4D, 0x00, 0x01] (withReg 5 0x0100000000000000) =
      .fault (.stackSegment 0x401000) ∧
    run 0 [0x65, 0x62, 0xF3, 0x75, 0x48, 0x18, 0x00, 0x01]
      { withReg 0 0 with gsBase := 0x0100000000000000 } = .fault (.generalProtection 0x401000) ∧
    run 0 mf1 (withReg 0 0x00007FFFFFFFFFF8) = .fault (.generalProtection 0x401000) ∧
    run 0 mf1 (withReg 0 0x0000800000000000) = .fault (.generalProtection 0x401000) ∧
    run 0 mf1 (withReg 0 0xFFFFFFFFFFFFFFF8) = .refused .operandWraps := by decide +kernel
/-- MF6: with LAW = 57 the address of MF5 is canonical. -/
theorem test_law57 :
    run 3 mf1 { withReg 0 0x0000800000000000 with cfg := { State.reset.cfg with law := .law57 } } =
      .next 0 0x401006 := by decide +kernel

/-- The machine with everything readable but the page at 1000. -/
def holed (mask : Opmask) : State :=
  { machine mask with cfg := { State.reset.cfg with
      readable := [{ base := 0, size := 0x1000 }, { base := 0x2000, size := 2 ^ 64 - 0x2000 }] } }

/-- MF7, MF8, MF10: #PF, whatever the mask. MF9: readable, all-zero mask: v[0] stays, `rip` advances by 7. -/
theorem test_page_fault :
    run 0 mf1 (holed 0) = .fault (.pageFault 0x1000 16 0x401000) ∧
    run 0 [0x62, 0xF3, 0x75, 0x49, 0x18, 0x00, 0x02] (holed 0) = .fault (.pageFault 0x1000 16 0x401000) ∧
    run 0 [0x62, 0xF3, 0x75, 0xC9, 0x18, 0x00, 0x02] (holed 0xF0) = .fault (.pageFault 0x1000 16 0x401000) ∧
    run 0 [0x62, 0xF3, 0x75, 0x49, 0x18, 0x00, 0x02] (machine 0) = .next dold 0x401007 := by
  decide +kernel

/-- A machine of the given CPUID flags. -/
def withFlags (avx : Bool) (avx512 : Option Avx512) : State :=
  { machine 0 with cfg := { State.reset.cfg with avx := avx, avx512 := avx512 } }

/-- XV2, XV3, XV5, XV6, XV7: a flag of the row is 0. -/
theorem test_cpuid_missing :
    run 0 [0xC4, 0xE3, 0x75, 0x18, 0xC2, 0x01] (withFlags false none) = .fault (.invalidOpcode 0x401000) ∧
    run 0 [0x62, 0xF3, 0x75, 0x28, 0x18, 0xC2, 0x01] (withFlags true (some { vl := false, dq := true })) =
      .fault (.invalidOpcode 0x401000) ∧
    run 0 [0x62, 0xF3, 0xF5, 0x48, 0x18, 0xC2, 0x03] (withFlags true (some { vl := true, dq := false })) =
      .fault (.invalidOpcode 0x401000) ∧
    run 0 [0x62, 0xF3, 0xF5, 0x28, 0x18, 0xC2, 0x01] (withFlags true (some { vl := false, dq := true })) =
      .fault (.invalidOpcode 0x401000) ∧
    run 0 [0x62, 0xF3, 0x75, 0x48, 0x1A, 0xC2, 0x01] (withFlags true (some { vl := true, dq := false })) =
      .fault (.invalidOpcode 0x401000) := by decide +kernel
/-- XV4, XV8: the row names AVX512F alone. -/
theorem test_cpuid_sufficient :
    run 0 [0x62, 0xF3, 0x75, 0x48, 0x18, 0xC2, 0x03]
      (withFlags false (some { vl := false, dq := false })) =
      .next 0x8F8E8D8C8B8A898887868584838281806F6E6D6C6B6A696867666564636261605F5E5D5C5B5A595857565554535251504F4E4D4C4B4A49484746454443424140 0x401007 ∧
    run 0 [0x62, 0xF3, 0xF5, 0x48, 0x1A, 0xC2, 0x01]
      (withFlags false (some { vl := false, dq := false })) =
      .next 0x9F9E9D9C9B9A999897969594939291908F8E8D8C8B8A898887868584838281805F5E5D5C5B5A595857565554535251504F4E4D4C4B4A49484746454443424140 0x401007 := by decide +kernel
/-- XV9 to XV13: OSXSAVE, XCR0, CR0.TS. -/
theorem test_enabling_bits :
    run 0 [0xC4, 0xE3, 0x75, 0x18, 0xC2, 0x01] { machine 0 with cr4 := 0 } =
      .fault (.invalidOpcode 0x401000) ∧
    run 0 [0xC4, 0xE3, 0x75, 0x18, 0xC2, 0x01] { machine 0 with xcr0 := 0xE3 } =
      .fault (.invalidOpcode 0x401000) ∧
    run 0 [0xC4, 0xE3, 0x75, 0x18, 0xC2, 0x01] { machine 0 with xcr0 := 7 } =
      .next 0x8F8E8D8C8B8A898887868584838281804F4E4D4C4B4A49484746454443424140 0x401006 ∧
    run 0 [0x62, 0xF3, 0x75, 0x48, 0x18, 0xC2, 0x03] { machine 0 with xcr0 := 0x67 } =
      .fault (.invalidOpcode 0x401000) ∧
    run 0 [0xC4, 0xE3, 0x75, 0x18, 0xC2, 0x01] { machine 0 with cr0 := 8 } =
      .fault (.deviceNotAvailable 0x401000) := by decide +kernel
/-- XV14, XV15, XV16: priority. -/
theorem test_priority :
    run 0 [0xC4, 0xE3, 0x71, 0x18, 0x00, 0x01] { withReg 0 0x0100000000000000 with cr0 := 8 } =
      .fault (.invalidOpcode 0x401000) ∧
    run 0 mf1 { withReg 0 0x0100000000000000 with cr0 := 8 } = .fault (.deviceNotAvailable 0x401000) ∧
    run 0 mf1 { withReg 0 0x0100000000000000 with
        cfg := { State.reset.cfg with readable := [{ base := 0x401000, size := 6 }] } } =
      .fault (.generalProtection 0x401000) := by decide +kernel
/-- `machine` with only the first `n` bytes from address 401000 on readable. -/
def readableTo (n : Nat) : State :=
  { machine 0 with cfg := { State.reset.cfg with readable := [{ base := 0x401000, size := n }] } }

/-- E1, the encoding of BE1 (#UD after its fourth byte), and E1 again. -/
def twoAndBad : List Byte :=
  [0xC4, 0xE3, 0x75, 0x18, 0xC2, 0x01] ++ [0xC4, 0xE3, 0x71, 0x18, 0xC2, 0x01] ++ [0xC4, 0xE3, 0x75, 0x18, 0xC2, 0x01]

/-- R191, P_text: a program with any byte that may not be fetched is refused at its launch, though the instruction at
`rip` could be fetched whole; and so is one whose first encoding raises #UD, one that is cut within its first
instruction, one that passes the top of the address space, and one at a non-canonical address. -/
theorem test_program_text :
    run 0 twoAndBad (readableTo 18) =
      .next 0x8F8E8D8C8B8A898887868584838281804F4E4D4C4B4A49484746454443424140 0x401006 ∧
    run 0 twoAndBad (readableTo 17) = .refused .programText ∧
    run 0 (twoAndBad.drop 6) (readableTo 12) = .fault (.invalidOpcode 0x401000) ∧
    run 0 (twoAndBad.drop 6) (readableTo 11) = .refused .programText ∧
    run 0 [0xC4, 0xE3, 0x71, 0x18, 0xC2, 0x01] (readableTo 5) = .refused .programText ∧
    run 0 mf1 (readableTo 5) = .refused .programText ∧
    run 0 mf1 { machine 0 with rip := 0xFFFFFFFFFFFFFFFB } = .refused .programText ∧
    run 0 mf1 { machine 0 with rip := 0x00007FFFFFFFFFFB } = .refused .programText := by decide +kernel

/-- No program at `rip`, a program that ends within its instruction, bytes of no instruction, another mode. -/
theorem test_step_refusals :
    result 0 (step (machine 0)) = .refused .outsideProgram ∧
    run 0 (mf1.take 5) (machine 0) = .refused .programText ∧
    run 0 [0] (machine 0) = .refused .notThisFamily ∧
    run 0 mf1 { machine 0 with mode := .compatibility } = .refused .outside64BitMode := by decide +kernel

/-! ### The hypotheses of the obligations can be met

For every obligation with hypotheses a state and operands that meet them; a theorem that serves several names them.
Where an obligation asks that `exec` or `step` completes, the theorem gives a state and operands with a next state. -/

def completes : Host.Outcome State Fault Refusal → Bool
  | .next _ => true
  | .fault _ => false
  | .refused _ => false

def isFinal : RunEnd → Bool
  | .final _ => true
  | .faulted _ => false
  | .refused _ => false
  | .unfinished _ => false

theorem next_of_completes {o : Host.Outcome State Fault Refusal} (h : completes o = true) : ∃ t, o = .next t := by
  cases o with
  | next t => exact ⟨t, rfl⟩
  | fault f => cases h
  | refused r => cases h

theorem fault_of_result {o : Host.Outcome State Fault Refusal} {f : Fault} (h : result 0 o = .fault f) :
    o = .fault f := by
  cases o with
  | next t => cases h
  | fault g => cases h; rfl
  | refused r => cases h

theorem refused_of_result {o : Host.Outcome State Fault Refusal} {r : Refusal} (h : result 0 o = .refused r) :
    o = .refused r := by
  cases o with
  | next t => cases h
  | fault f => cases h
  | refused q => cases h; rfl

/-- The conditions of `State.Recognises` in one decidable conjunction. -/
theorem recognises_of {s : State} {i : Instr}
    (h : (s.mode ≠ .realAddress ∧ s.mode ≠ .virtual8086) ∧ (∀ f ∈ i.row.needs, s.cfg.has f = true) ∧
      s.cr4.getLsbD 18 = true ∧ (s.xcr0.getLsbD 1 = true ∧ s.xcr0.getLsbD 2 = true) ∧
      (i.row.evex = true → s.xcr0.getLsbD 5 = true ∧ s.xcr0.getLsbD 6 = true ∧ s.xcr0.getLsbD 7 = true) ∧
      (i.args.kn = 0 → i.args.z = false)) : s.Recognises i :=
  ⟨h.1, h.2.1, h.2.2.1, h.2.2.2.1, h.2.2.2.2.1, h.2.2.2.2.2⟩

theorem admits_of {s : State} {a : Word64} {n : Nat}
    (h : s.mode = .bits64 ∧ a.toNat + n ≤ 2 ^ 64 ∧
      (∀ j < n, s.cfg.law.canonical (BitVec.ofNat 64 (a.toNat + j)) = true) ∧
      (∀ j < n, s.byteReadable (a.toNat + j) = true) ∧
      ¬(s.cr0.getLsbD 18 = true ∧ s.rflags.getLsbD 18 = true ∧ s.cpl = 3)) : s.Admits a n :=
  ⟨h.1, h.2.1, h.2.2.1, h.2.2.2.1, h.2.2.2.2⟩

theorem ready_of_register {s : State} {i : Instr} (h : s.Enables i) (hm : i.mem? = none) : s.Ready i :=
  ⟨h, fun m h' => by rw [hm] at h'; cases h'⟩

theorem ready_of_memory {s : State} {i : Instr} {m : MemOp} (h : s.Enables i) (hm : i.mem? = some m)
    (ha : s.Admits (i.linear m s) i.width) : s.Ready i :=
  ⟨h, fun m' h' => by rw [hm] at h'; cases h'; exact ha⟩

/-- The seven instructions, v[0] <- v[1], v[2] with mask k[1]. -/
def registerForms : List Instr :=
  [.vinsertf128 (vexReg012 1), .vinsertf32x4Ymm (evexReg012 1 1 false), .vinsertf32x4Zmm (evexReg012 2 1 false),
   .vinsertf64x2Ymm (evexReg012 1 1 true), .vinsertf64x2Zmm (evexReg012 3 1 true),
   .vinsertf32x8 (evexReg012 1 1 false), .vinsertf64x4 (evexReg012 1 1 true)]

/-- The seven instructions, v[0] <- v[1], [rax] without mask. -/
def memoryForms : List Instr :=
  [.vinsertf128 (vexMem noPrefix atRax 1), .vinsertf32x4Ymm (evexMem noPrefix atRax 1 0 false),
   .vinsertf32x4Zmm (evexMem noPrefix atRax 2 0 false), .vinsertf64x2Ymm (evexMem noPrefix atRax 1 0 false),
   .vinsertf64x2Zmm (evexMem noPrefix atRax 3 0 false), .vinsertf32x8 (evexMem noPrefix atRax 1 0 false),
   .vinsertf64x4 (evexMem noPrefix atRax 0 0 false)]

/-- The program E1. -/
def fetched : State := placed [0xC4, 0xE3, 0x75, 0x18, 0xC2, 0x01] (machine 0)

theorem test_witness_decode_encode_agree :
    (∀ i ∈ registerForms, i.wellFormed = true) ∧ ∀ i ∈ memoryForms, i.wellFormed = true := by decide
/-- For DecodedInstructionUsesLenBytes and DecodedInstructionSelectsItsRow. -/
theorem test_witness_decoded_instruction :
    decode [0xC4, 0xE3, 0x75, 0x18, 0xC2, 0x01, 0x90] = .instr (.vinsertf128 (vexReg012 1)) [0x90] := by decide
/-- R90 on an instruction of each row, and the rows differ. -/
theorem test_rows :
    (∀ i ∈ registerForms ++ memoryForms, i.selectedBy (encode i) = true) ∧
    (registerForms.map Instr.rowMatch).Nodup := by decide
theorem test_witness_vex_length_zero :
    let b1 : Byte := 0xE3
    let b2 : Byte := 0x71
    let s := placed [0x67, 0x65, 0xC4, 0xE3, 0x71, 0x18, 0x00, 0x01] (machine 0)
    b1.extractLsb' 0 5 = 3 ∧ b2.extractLsb' 0 2 = 1 ∧ b2.getLsbD 7 = false ∧ b2.getLsbD 2 = false ∧
      s.launchRefusal = none ∧ s.fetch = Prefixes.bytesIn true { seg := some .gs, asz32 := true } ++ 0xC4 :: b1 :: b2 :: 0x18 ::
        [0x00, 0x01] := by decide +kernel
/-- One byte for each way an EVEX encoding is reserved: BE10, BE11, BE6, BE7, BE8, BE5, BE4. -/
theorem test_witness_reserved_evex :
    (0xF7 : Byte).extractLsb' 2 2 ≠ 0 ∧ (0x71 : Byte).getLsbD 2 = false ∧
    (0xF3 : Byte).extractLsb' 0 2 = 3 ∧ (0x75 : Byte).extractLsb' 0 2 = 1 ∧
    (0x08 : Byte).extractLsb' 5 2 = 0 ∧ (0x68 : Byte).extractLsb' 5 2 = 3 ∧ (0x28 : Byte).extractLsb' 5 2 ≠ 2 ∧
    (0x58 : Byte).getLsbD 4 = true ∧ (0xC8 : Byte).getLsbD 7 = true ∧ (0xC8 : Byte).extractLsb' 0 3 = 0 := by decide
/-- BE3. -/
theorem test_witness_vex_wide :
    (0xE3 : Byte).extractLsb' 0 5 = 3 ∧ (0xF5 : Byte).extractLsb' 0 2 = 1 ∧ (0xF5 : Byte).getLsbD 2 = true ∧
    (0xF5 : Byte).getLsbD 7 = true := by decide
/-- The ends of the REX range; a second LOCK and a GS override behind the first LOCK. -/
theorem test_witness_forbidden_legacy_byte :
    ForbiddenLegacy 0x40 ∧ ForbiddenLegacy 0x4F ∧ ForbiddenLegacy 0xF0 ∧
    ∀ b ∈ ([0x65, 0xF0, 0x67] : List Byte), AcceptedLegacy b ∨ ForbiddenLegacy b := by
  refine ⟨by unfold ForbiddenLegacy; decide, by unfold ForbiddenLegacy; decide, .inl rfl, ?_⟩
  simp only [List.mem_cons, List.not_mem_nil, or_false]
  rintro b (rfl | rfl | rfl)
  · exact .inl (.inr ⟨.gs, rfl⟩)
  · exact .inr (.inl rfl)
  · exact .inl (.inl rfl)
/-- A segment override and a 67 byte, in both orders. -/
theorem test_witness_repeated_legacy_byte :
    Prefixes.bytesIn false { seg := some .gs, asz32 := true } = [0x65, 0x67] ∧
    Prefixes.bytesIn true { seg := some .gs, asz32 := true } = [0x67, 0x65] := by decide
/-- Repeats around another accepted byte, and a forbidden byte that does not stand next to C4. -/
theorem test_decode_scattered_legacy_bytes :
    (∀ bs ∈ ([[0x65, 0x67, 0x64], [0x65, 0x67, 0x67], [0x67, 0x65, 0x67], [0x67, 0x65, 0x64]] : List (List Byte)),
      decode (bs ++ [0xC4, 0xE3, 0x75, 0x18, 0x00, 0x01]) = .refused .repeatedPrefix) ∧
    decode [0xF0, 0x64, 0xC4, 0xE3, 0x75, 0x18, 0x00, 0x01] = .invalidOpcode ∧
    decode [0x67, 0x65, 0xC4, 0xE3, 0x71, 0x18, 0x00, 0x01] = .invalidOpcode ∧
    decode [0x67, 0x65, 0xC4, 0xE3, 0xF5, 0x18, 0x00, 0x01] = .refused .vexW1 := by decide
/-- R92, by hand from E1, E3, E7 and E8: X turned (C4 A3), B turned (C4 C3), both (C4 83); and E26 with 67 before 65.
The instruction is the same. -/
theorem test_decode_ignored_bits :
    decode [0xC4, 0xA3, 0x75, 0x18, 0xC2, 0x01] = .instr (.vinsertf128 (vexReg012 1)) [] ∧
    decode [0xC4, 0xA3, 0x75, 0x18, 0x00, 0x01] = .instr (.vinsertf128 (vexMem noPrefix atRax 1)) [] ∧
    decode [0xC4, 0x83, 0x75, 0x18, 0x05, 0x20, 0x00, 0x00, 0x00, 0x01] =
      .instr (.vinsertf128 (vexMem noPrefix (.ripRel 0x20) 1)) [] ∧
    decode [0xC4, 0xC3, 0x75, 0x18, 0x04, 0x25, 0x00, 0x10, 0x00, 0x00, 0x01] =
      .instr (.vinsertf128 (vexMem noPrefix (.sibNoBase .s1 none 0x1000) 1)) [] ∧
    decode [0x67, 0x65, 0x62, 0xF3, 0x75, 0x48, 0x18, 0x00, 0x01] =
      .instr (.vinsertf32x4Zmm (evexMem { seg := some .gs, asz32 := true } atRax 1 0 false)) [] ∧
    (Instr.vinsertf128 (vexReg012 1)).encodingWith false 0x40 = [0xC4, 0xA3, 0x75, 0x18, 0xC2, 0x01] := by decide
theorem test_witness_step_runs_decoded_instruction :
    fetched.launchRefusal = none ∧
      decode fetched.fetch = .instr (.vinsertf128 (vexReg012 1)) [] := by decide +kernel
/-- With the ignored X turned. -/
theorem test_witness_step_runs_placed_instruction :
    let i := Instr.vinsertf128 (vexReg012 1)
    let s := placed [0xC4, 0xA3, 0x75, 0x18, 0xC2, 0x01] (machine 0)
    s.launchRefusal = none ∧ i.wellFormed = true ∧
      s.rip.toNat + (i.encodingWith false 0x40).length = s.text.base + s.text.size ∧
      ∀ (j : Nat) (h : j < (i.encodingWith false 0x40).length),
        s.mem.readByte (s.rip.toNat + j) = (i.encodingWith false 0x40)[j] := by decide +kernel
/-- `launchRefusal` is `none` exactly where `State.Steps` holds. -/
theorem test_witness_steps : fetched.Steps := launchRefusal_eq_none.1 (by decide +kernel)
/-- What `step` answers for bytes that are no instruction: BE1, BE17, BE16, BE3, and 15 LOCK bytes. -/
theorem test_step_other_bytes :
    run 0 [0xC4, 0xE3, 0x71, 0x18, 0xC2, 0x01] (machine 0) = .fault (.invalidOpcode 0x401000) ∧
    run 0 [0xC5, 0xF5, 0x18, 0xC2, 0x01] (machine 0) = .refused .notThisFamily ∧
    run 0 [0x65, 0x64, 0xC4, 0xE3, 0x75, 0x18, 0x00, 0x01] (machine 0) = .refused .repeatedPrefix ∧
    run 0 [0xC4, 0xE3, 0xF5, 0x18, 0xC2, 0x01] (machine 0) = .refused .vexW1 ∧
    run 0 (List.replicate 15 0xF0) (machine 0) = .refused .tooLong := by decide +kernel
/-- The first `n` bytes of E1 as the program, the other bytes behind it. -/
def cutTo (n : Nat) : State := { fetched with text := { base := 0x401000, size := n } }

/-- A program that ends before E1's last byte, and one that ends after E1's first: the second clause of
StepRunsPlacedInstruction. -/
theorem test_witness_text_cut_short :
    (cutTo 1).launchRefusal = none ∧ (cutTo 5).launchRefusal = none ∧
    (encode (.vinsertf128 (vexReg012 1))).length = 6 ∧
    (∀ (j : Nat) (h : j < (encode (.vinsertf128 (vexReg012 1))).length),
      fetched.mem.readByte (0x401000 + j) = (encode (.vinsertf128 (vexReg012 1)))[j]) ∧
    result 0 (step (cutTo 1)) = .refused .programText ∧ result 0 (step (cutTo 5)) = .refused .programText := by
  decide +kernel
/-- The last canonical address of the low half and the first of the high half, and their neighbours (R57). -/
theorem test_canonical_bounds :
    LinearWidth.law48.canonical 0x00007FFFFFFFFFFF = true ∧ LinearWidth.law48.canonical 0x0000800000000000 = false ∧
    LinearWidth.law48.canonical 0xFFFF7FFFFFFFFFFF = false ∧ LinearWidth.law48.canonical 0xFFFF800000000000 = true ∧
    LinearWidth.law57.canonical 0x00FFFFFFFFFFFFFF = true ∧ LinearWidth.law57.canonical 0x0100000000000000 = false ∧
    LinearWidth.law57.canonical 0xFEFFFFFFFFFFFFFF = false ∧ LinearWidth.law57.canonical 0xFF00000000000000 = true := by
  decide
def afterTwo (s : State) : Host.Outcome State Fault Refusal :=
  match step s with
  | .next t => step t
  | .fault f => .fault f
  | .refused r => .refused r

/-- E1 and E1 again as the program. -/
def e1Twice : State := placed ([0xC4, 0xE3, 0x75, 0x18, 0xC2, 0x01] ++ [0xC4, 0xE3, 0x75, 0x18, 0xC2, 0x01]) (machine 0)

def isRefusedAtLaunch : RunEnd → Bool
  | .refused r => r == .launchNotAtStart
  | .final _ => false
  | .faulted _ => false
  | .unfinished _ => false

theorem test_witness_step_refuses :
    State.mode { machine 0 with mode := .compatibility } ≠ .bits64 ∧
    State.launchRefusal { machine 0 with cr0 := 0x40000, rflags := 0x40002, cpl := 3 } = some .alignmentChecking ∧
    State.launchRefusal { machine 0 with wrapped := true } = some .programWraps ∧
    (placed mf1 (readableTo 5)).launchRefusal = some .programText ∧
    (placed mf1 (readableTo 5)).fetchable 0x401004 = true ∧
    (placed mf1 (readableTo 5)).fetchable 0x401005 = false ∧
    State.launchRefusal { fetched with rip := 0x400FFF } = some .outsideProgram ∧
    State.launchRefusal { fetched with rip := 0x401000 } = none ∧
    State.launchRefusal { fetched with rip := 0x401001 } = some .launchNotAtStart ∧
    State.launchRefusal { fetched with rip := 0x401005 } = some .launchNotAtStart ∧
    State.launchRefusal { fetched with rip := 0x401005, running := true } = none ∧
    State.launchRefusal { fetched with rip := 0x401006 } = some .outsideProgram := by decide +kernel

/-- R194, "a run starts with rip = S": E1 twice, launched at the first (final), at the second and within the first
(refused); and stepped on to the second. -/
theorem test_run_starts_at_start :
    isFinal (runProgram 2 e1Twice) = true ∧
    isRefusedAtLaunch (runProgram 2 { e1Twice with rip := 0x401006 }) = true ∧
    isRefusedAtLaunch (runProgram 2 { e1Twice with rip := 0x401001, running := true }) = true ∧
    result 0 (afterTwo e1Twice) =
      .next 0x8F8E8D8C8B8A898887868584838281804F4E4D4C4B4A49484746454443424140 0x40100C := by decide +kernel

/-- E1 in the last six bytes of the address space. -/
def atTop : State :=
  placed [0xC4, 0xE3, 0x75, 0x18, 0xC2, 0x01] { machine 0 with rip := 0xFFFFFFFFFFFFFFFA, mem := [] }

/-- E1 in the last six canonical bytes of the low half of the address space. -/
def atLowEnd : State :=
  placed [0xC4, 0xE3, 0x75, 0x18, 0xC2, 0x01] { machine 0 with rip := 0x00007FFFFFFFFFFA, mem := [] }

/-- The instruction completes with `rip` = 0, the end of its program, the run is final, and the next step is refused
although E1 stands at address 0 too. -/
theorem test_witness_wrap :
    let s := { atTop with mem := atTop.mem.writeBytes 0 [0xC4, 0xE3, 0x75, 0x18, 0xC2, 0x01] }
    2 ^ 64 ≤ s.rip.toNat + (Instr.vinsertf128 (vexReg012 1)).len ∧
    completes (exec (.vinsertf128 (vexReg012 1)) s) = true ∧
    result 0 (step s) = .next 0x8F8E8D8C8B8A898887868584838281804F4E4D4C4B4A49484746454443424140 0 ∧
    result 0 (afterTwo s) = .refused .programWraps ∧
    isFinal (runTo 1 s) = true := by decide +kernel

/-- For the seven result statements, the completion statement and the two that relate unmasked forms: every register
form and every memory form is ready. -/
theorem test_witness_enabled : ∀ i ∈ registerForms ++ memoryForms, (machine 0xA5).Enables i := by
  intro i hi
  simp only [registerForms, memoryForms, List.mem_append, List.mem_cons, List.not_mem_nil, or_false] at hi
  rcases hi with (rfl | rfl | rfl | rfl | rfl | rfl | rfl) | (rfl | rfl | rfl | rfl | rfl | rfl | rfl) <;>
    exact ⟨recognises_of (by decide), by decide⟩
theorem test_witness_ready_register : ∀ i ∈ registerForms, (machine 0xA5).Ready i := fun i hi =>
  ready_of_register (test_witness_enabled i (List.mem_append_left _ hi)) (by
    revert i hi; decide)
theorem test_witness_ready_memory : ∀ i ∈ memoryForms, (machine 0xA5).Ready i := by
  intro i hi
  refine ready_of_memory (m := atRax) (test_witness_enabled i (List.mem_append_right _ hi)) (by revert i hi; decide) ?_
  simp only [memoryForms, List.mem_cons, List.not_mem_nil, or_false] at hi
  rcases hi with rfl | rfl | rfl | rfl | rfl | rfl | rfl <;> exact admits_of (by decide +kernel)
/-- The last 16 bytes of the address space are admitted. -/
theorem test_witness_ready_last_bytes :
    State.Ready (withReg 0 0xFFFFFFFFFFFFFFF0) (.vinsertf32x4Zmm (evexMem noPrefix atRax 3 0 false)) :=
  ready_of_memory (m := atRax) ⟨recognises_of (by decide), by decide⟩ rfl (admits_of (by decide +kernel))

/-- A next state of every form, for OnlyDestinationAndRipChange, NoSimdFloatingPointException and, with the theorems
on their other hypotheses, BitsAboveVectorLengthZero, UnreadBitsDoNotMatter and RepeatingAnInsertChangesNothing. -/
theorem test_witness_exec_completes :
    ∀ i ∈ registerForms ++ memoryForms, ∃ t, exec i (machine 0xA5) = .next t := fun i hi =>
  next_of_completes (by revert i hi; decide +kernel)
/-- The last block of each shape: it ends where the vector does. -/
theorem test_witness_insert_replaces_one_block : 128 * 3 + 128 ≤ 512 ∧ 256 * 1 + 256 ≤ 512 ∧ 128 * 1 + 128 ≤ 256 := by
  decide
/-- Masks that agree on the 4 bits a 256-bit form with 64-bit elements reads, and differ above. -/
theorem test_witness_masked_updates_elements :
    ((256, 64, 4) : Nat × Nat × Nat) = (256, 64, 4) ∧ (0x06 : Opmask) ≠ 0xF6 ∧
    ∀ j < 4, (0x06 : Opmask).getLsbD j = (0xF6 : Opmask).getLsbD j := by decide
/-- Element 8 of block 2 is on, 3 on outside, 12 off (k = 0F0F, imm8 = 2); with z besides. -/
theorem test_witness_elements_128 :
    ((machine 0x0F0F).k.get 1).getLsbD 8 = true ∧ (128 / 32) * (2 % 4) ≤ 8 ∧ 11 < (128 / 32) * (2 % 4) + 128 / 32 ∧
    ((machine 0x0F0F).k.get 1).getLsbD 11 = true ∧ ((machine 0x0F0F).k.get 1).getLsbD 3 = true ∧
    ((machine 0x0F0F).k.get 1).getLsbD 7 = false ∧ ((machine 0x0F0F).k.get 1).getLsbD 12 = false ∧
    completes (exec (.vinsertf32x4Zmm (evexReg012 2 1 false)) (machine 0x0F0F)) = true ∧
    completes (exec (.vinsertf32x4Zmm (evexReg012 2 1 true)) (machine 0x0F0F)) = true := by decide +kernel
/-- Elements 7 and 8, the last of one half and the first of the other, on and off. -/
theorem test_witness_elements_256 :
    ((machine 0x0100).k.get 1).getLsbD 8 = true ∧ ((machine 0x0100).k.get 1).getLsbD 7 = false ∧
    ((machine 0x0080).k.get 1).getLsbD 7 = true ∧ ((machine 0x0080).k.get 1).getLsbD 8 = false ∧
    completes (exec (.vinsertf32x8 (evexReg012 0 1 false)) (machine 0x0080)) = true ∧
    completes (exec (.vinsertf64x4 (evexReg012 1 1 true)) (machine 0x0080)) = true := by decide +kernel
theorem test_witness_immediate_high_bits :
    (0xFE : Byte).getLsbD 0 = (0x02 : Byte).getLsbD 0 ∧ (0xFE : Byte).getLsbD 1 = (0x02 : Byte).getLsbD 1 ∧
    (Instr.vinsertf64x2Zmm (evexReg012 0x02 0 false)).row.vl = 512 ∧
    (Instr.vinsertf64x2Zmm (evexReg012 0x02 0 false)).row.w = 128 := by decide
/-- Bit 256 lies above the ymm forms' length and above nothing of the zmm forms'. -/
theorem test_witness_bits_above_vector_length :
    (Instr.vinsertf128 (vexReg012 1)).row.vl ≤ 256 ∧
    completes (exec (.vinsertf128 (vexReg012 1)) (machine 0)) = true := by decide +kernel

/-- E1 in the last six canonical bytes of the low half: the run is final with the first non-canonical address in `rip`
(log entry 24), and the next step is refused. -/
theorem test_end_not_canonical :
    isFinal (runProgram 1 atLowEnd) = true ∧
    result 0 (step atLowEnd) =
      .next 0x8F8E8D8C8B8A898887868584838281804F4E4D4C4B4A49484746454443424140 0x0000800000000000 ∧
    result 0 (afterTwo atLowEnd) = .refused .outsideProgram := by decide +kernel

/-- For FinishedRunChangesOnlyVectorsAndRip and the second clause of RunsTerminate. -/
theorem test_witness_finished_run : ∃ t, runTo 1 fetched = .final t := by
  have h : isFinal (runTo 1 fetched) = true := by decide +kernel
  generalize runTo 1 fetched = e at h ⊢
  cases e with
  | final t => exact ⟨t, rfl⟩
  | faulted f => cases h
  | refused r => cases h
  | unfinished s => cases h

/-- An AVX-only machine (program P4): v[1] holds the low 256 bits of SRC1, v[2] SRC2's 128 bits. -/
def avxOnly : State :=
  placed [0xC4, 0xE3, 0x75, 0x18, 0xC2, 0x01]
    { machine 0 with
      cfg := { State.reset.cfg with avx512 := none, kw := .kw16 }
      v := ((Vector.replicate 32 0).set 1 ((src1.setWidth 256).setWidth 512)).set 2 ((src2.setWidth 128).setWidth 512) }

theorem test_witness_step_keeps_invariant : avxOnly.Inv ∧ ∃ t, step avxOnly = .next t := by
  refine ⟨⟨by decide +kernel, fun n p hp => ?_, by decide +kernel, fun n p hp => ?_⟩,
    next_of_completes (by decide +kernel)⟩
  · have h : ∀ n : Fin 32, avxOnly.v.get n >>> 256 = 0 := by decide +kernel
    have := congrArg (·.getLsbD (p - 256)) (h n)
    have hp' : 256 ≤ p := hp
    simpa [BitVec.getLsbD_ushiftRight, Nat.add_sub_cancel' hp'] using this
  · have h : ∀ n : Fin 8, avxOnly.k.get n = 0 := by decide +kernel
    rw [h n]
    exact BitVec.getLsbD_zero
/-- P4, instruction 1. -/
theorem test_step_avx_only :
    result 0 (step avxOnly) =
      .next 0x8F8E8D8C8B8A898887868584838281804F4E4D4C4B4A49484746454443424140 0x401006 := by decide +kernel

/-- Every clause of the #UD conditions, and it is why the form stops: the rest of the state is `machine`'s. -/
theorem test_witness_disabled_form :
    (∀ s ∈ [{ machine 0 with mode := .realAddress }, { machine 0 with mode := .virtual8086 }, withFlags false none,
            { machine 0 with cr4 := 0 }, { machine 0 with xcr0 := 0xE5 }, { machine 0 with xcr0 := 0xE3 },
            { machine 0 with xcr0 := 0xC7 }, { machine 0 with xcr0 := 0xA7 }, { machine 0 with xcr0 := 0x67 }],
      result 0 (exec (.vinsertf64x4 (evexReg012 1 1 true)) s) = .fault (.invalidOpcode 0x401000)) ∧
    result 0 (exec (.vinsertf64x4 (evexReg012 1 0 true)) (machine 0)) = .fault (.invalidOpcode 0x401000) := by
  decide +kernel
theorem test_witness_no_evex_form :
    (Instr.vinsertf32x4Zmm (evexReg012 0 0 false)).row.evex = true ∧ avxOnly.cfg.has .avx512f = false := by
  decide +kernel
theorem test_witness_task_switched :
    State.Recognises { machine 0 with cr0 := 8 } (.vinsertf32x8 (evexMem noPrefix atRax 1 0 false)) ∧
    (8 : Word64).getLsbD 3 = true := ⟨recognises_of (by decide), by decide⟩

/-- [rbp] and [rsp] without an override, [rbp] under FS, [rax]: both arms, at the last byte of the operand. -/
theorem test_witness_non_canonical_operand :
    (∀ m ∈ [MemOp.base 5 (.disp8 0), .sib .s1 none 4 .absent, atRax],
      let s := { machine 0 with x := Vector.replicate 16 0x00007FFFFFFFFFF1 }
      let i := Instr.vinsertf128 (vexMem noPrefix m 1)
      i.mem? = some m ∧ s.mode = .bits64 ∧ (i.linear m s).toNat + i.width ≤ 2 ^ 64 ∧ 15 < i.width ∧
        s.cfg.law.canonical (BitVec.ofNat 64 ((i.linear m s).toNat + 14)) = true ∧
        s.cfg.law.canonical (BitVec.ofNat 64 ((i.linear m s).toNat + 15)) = false) ∧
    (let s := { machine 0 with x := Vector.replicate 16 0x00007FFFFFFFFFF1 }
     result 0 (exec (.vinsertf128 (vexMem noPrefix (.base 5 (.disp8 0)) 1)) s) = .fault (.stackSegment 0x401000) ∧
     result 0 (exec (.vinsertf128 (vexMem noPrefix (.sib .s1 none 4 .absent) 1)) s) =
       .fault (.stackSegment 0x401000) ∧
     result 0 (exec (.vinsertf128 (vexMem { seg := some .fs, asz32 := false } (.base 5 (.disp8 0)) 1)) s) =
       .fault (.generalProtection 0x401000) ∧
     result 0 (exec (.vinsertf128 (vexMem noPrefix atRax 1)) s) = .fault (.generalProtection 0x401000)) := by
  decide +kernel
theorem test_witness_unreadable_operand :
    let i := Instr.vinsertf64x4 (evexMem noPrefix atRax 1 1 false)
    let s := { holed 0 with x := (Vector.replicate 16 0).set 0 0xFE1 }
    i.mem? = some atRax ∧ s.mode = .bits64 ∧ (i.linear atRax s).toNat + i.width ≤ 2 ^ 64 ∧
      (∀ q < i.width, s.cfg.law.canonical (BitVec.ofNat 64 ((i.linear atRax s).toNat + q)) = true) ∧
      31 < i.width ∧ s.byteReadable ((i.linear atRax s).toNat + 30) = true ∧
      s.byteReadable ((i.linear atRax s).toNat + 31) = false ∧
      result 0 (exec i s) = .fault (.pageFault 0xFE1 32 0x401000) := by decide +kernel
/-- One byte past the end. -/
theorem test_witness_wrapping_operand :
    let i := Instr.vinsertf32x4Ymm (evexMem noPrefix atRax 1 0 false)
    let s := withReg 0 0xFFFFFFFFFFFFFFF1
    i.mem? = some atRax ∧ s.mode = .bits64 ∧ (i.linear atRax s).toNat + i.width = 2 ^ 64 + 1 ∧
      result 0 (exec i s) = .refused .operandWraps := by decide +kernel
/-- Alignment checking in force, x[0] = `a`. -/
def checked (a : Word64) : State := { withReg 0 a with cr0 := 0x40000, rflags := 0x40002, cpl := 3 }

theorem test_witness_alignment_checking :
    let i := Instr.vinsertf32x8 (evexMem noPrefix atRax 1 0 false)
    let s := checked 0x1001
    i.mem? = some atRax ∧ s.mode = .bits64 ∧ (s.cr0.getLsbD 18 = true ∧ s.rflags.getLsbD 18 = true ∧ s.cpl = 3) ∧
      (i.linear atRax s).toNat + i.width ≤ 2 ^ 64 ∧
      (∀ q < i.width, s.cfg.law.canonical (BitVec.ofNat 64 ((i.linear atRax s).toNat + q)) = true) ∧
      (∀ q < i.width, s.byteReadable ((i.linear atRax s).toNat + q) = true) := by decide +kernel
/-- The aligned operand at 1000 is refused like the one at 1001; every step is refused, a register form's too; the
meaning of a register form is not. -/
theorem test_alignment_checking :
    result 0 (exec (.vinsertf32x8 (evexMem noPrefix atRax 1 0 false)) (checked 0x1000)) =
      .refused .alignmentChecking ∧
    result 0 (exec (.vinsertf32x8 (evexMem noPrefix atRax 1 0 false)) (checked 0x1001)) =
      .refused .alignmentChecking ∧
    run 0 [0xC4, 0xE3, 0x75, 0x18, 0xC2, 0x01] (checked 0x1000) = .refused .alignmentChecking ∧
    completes (exec (.vinsertf128 (vexReg012 1)) (checked 0x1000)) = true := by decide +kernel
/-- `Enables` in the modes and states of the four statements above and of the next. -/
theorem test_witness_enables_elsewhere :
    State.Enables { machine 0 with x := Vector.replicate 16 0x00007FFFFFFFFFF1 }
      (.vinsertf128 (vexMem noPrefix (.base 5 (.disp8 0)) 1)) ∧
    State.Enables { holed 0 with x := (Vector.replicate 16 0).set 0 0xFE1 }
      (.vinsertf64x4 (evexMem noPrefix atRax 1 1 false)) ∧
    (withReg 0 0xFFFFFFFFFFFFFFF1).Enables (.vinsertf32x4Ymm (evexMem noPrefix atRax 1 0 false)) ∧
    (checked 0x1001).Enables (.vinsertf32x8 (evexMem noPrefix atRax 1 0 false)) ∧
    State.Enables { machine 0 with mode := .compatibility } (.vinsertf32x8 (evexMem noPrefix atRax 1 0 false)) ∧
    State.Enables { machine 0 with mode := .protectedMode } (.vinsertf128 (vexMem noPrefix atRax 1)) :=
  ⟨⟨recognises_of (by decide), by decide⟩, ⟨recognises_of (by decide), by decide⟩,
   ⟨recognises_of (by decide), by decide⟩, ⟨recognises_of (by decide), by decide⟩,
   ⟨recognises_of (by decide), by decide⟩, ⟨recognises_of (by decide), by decide⟩⟩
/-- A register form runs in compatibility and in protected mode, where a memory form is refused. -/
theorem test_witness_memory_operand_outside64 :
    (∀ mode ∈ [Mode.compatibility, .protectedMode],
      result 0 (exec (.vinsertf128 (vexMem noPrefix atRax 1)) { machine 0 with mode := mode }) =
        .refused .addressingOutside64BitMode ∧
      completes (exec (.vinsertf128 (vexReg012 1)) { machine 0 with mode := mode }) = true) := by decide +kernel
/-- A fault of `exec`, a fault of `step` at decode, a refusal. -/
theorem test_witness_faults_and_refusals :
    exec (.vinsertf128 (vexReg012 1)) { machine 0 with cr0 := 8 } = .fault (.deviceNotAvailable 0x401000) ∧
    step (placed [0xC4, 0xE3, 0x71, 0x18, 0xC2, 0x01] (machine 0)) = .fault (.invalidOpcode 0x401000) ∧
    exec (.vinsertf128 (vexMem noPrefix atRax 1)) (withReg 0 0xFFFFFFFFFFFFFFF1) = .refused .operandWraps :=
  ⟨fault_of_result (by decide +kernel), fault_of_result (by decide +kernel), refused_of_result (by decide +kernel)⟩
/-- A CR4 with every bit but OSXSAVE turned. -/
theorem test_witness_no_simd_exception :
    (0xFFFFFFFFFFFFFFFF : Word64).getLsbD 18 = (machine 0).cr4.getLsbD 18 := by decide

/-- Registers and masks that differ from `machine`'s only where R23 and R13 say that nothing is read. -/
theorem test_witness_unread_bits :
    let i := Instr.vinsertf64x2Ymm (evexReg012 1 1 false)
    let s := machine 0x06
    let v := ((s.v.set 0 (dold ||| (1 <<< 300))).set 1 (src1 ||| (1 <<< 256))).set 2 ((src2.setWidth 128).setWidth 512)
    let k := s.k.set 1 0xF6
    v ≠ s.v ∧ k ≠ s.k ∧
    (∀ p < i.row.vl, (v.get i.args.s1).getLsbD p = (s.v.get i.args.s1).getLsbD p) ∧
    (∀ n, i.args.src2 = .reg n → ∀ p < i.row.w, (v.get n).getLsbD p = (s.v.get n).getLsbD p) ∧
    (i.args.kn ≠ 0 ∧ ∀ j < i.kl, (k.get i.args.kn).getLsbD j = (s.k.get i.args.kn).getLsbD j) ∧
    (i.args.z = false ∧ ∀ p < i.row.vl, (v.get i.args.d).getLsbD p = (s.v.get i.args.d).getLsbD p) ∧
    completes (exec i s) = true := by decide +kernel
theorem test_witness_only_operand_bytes :
    let i := Instr.vinsertf32x4Ymm (evexMem noPrefix atRax 1 0 false)
    let mem := (memory.writeByte 0x1010 0).writeByte 0xFFF 1
    i.mem? = some atRax ∧ mem ≠ memory ∧ i.width = 16 ∧
      ∀ q < 16, mem.readByte ((i.linear atRax (machine 0)).toNat + q) =
        (machine 0).mem.readByte ((i.linear atRax (machine 0)).toNat + q) := by decide +kernel
theorem test_witness_register_forms : ∀ i ∈ registerForms, i.mem? = none := by decide
theorem test_witness_privilege : (machine 0).cr0.getLsbD 18 = false := by decide
theorem test_witness_unmasked_granularities :
    (∀ i ∈ [Instr.vinsertf32x4Ymm (evexMem noPrefix atRax 1 0 false), .vinsertf64x2Ymm (evexMem noPrefix atRax 1 0 false),
        .vinsertf32x8 (evexMem noPrefix atRax 1 0 false)], i ∈ memoryForms) ∧
    (machine 0xA5).Ready (.vinsertf32x4Zmm (evexReg012 1 0 false)) ∧
    (machine 0xA5).Ready (.vinsertf64x2Zmm (evexReg012 1 0 false)) ∧
    (machine 0xA5).Ready (.vinsertf64x4 (evexMem noPrefix atRax 1 0 false)) :=
  ⟨by decide, ready_of_register ⟨recognises_of (by decide), by decide⟩ rfl,
   ready_of_register ⟨recognises_of (by decide), by decide⟩ rfl,
   ready_of_memory (m := atRax) ⟨recognises_of (by decide), by decide⟩ rfl (admits_of (by decide +kernel))⟩
/-- The memory forms at [rax]: one linear address for both encodings. -/
theorem test_witness_vex_agrees :
    (vexMem noPrefix atRax 1).toEvex = evexMem noPrefix atRax 1 0 false ∧
    (Instr.vinsertf128 (vexMem noPrefix atRax 1)).linear atRax (machine 0xA5) =
      (Instr.vinsertf32x4Ymm (evexMem noPrefix atRax 1 0 false)).linear atRax (machine 0xA5) := by decide +kernel
/-- M = 3C doubled is 0FF0 (section 7 item 3). -/
theorem test_witness_doubled_mask :
    (∀ j < 8, (0x0FF0 : Opmask).getLsbD (2 * j) = ((machine 0x3C).k.get 1).getLsbD j ∧
      (0x0FF0 : Opmask).getLsbD (2 * j + 1) = ((machine 0x3C).k.get 1).getLsbD j) ∧
    (machine 0x3C).Ready (.vinsertf64x4 (evexReg012 1 1 false)) ∧
    (machine 0x3C).Ready (.vinsertf32x8 (evexReg012 1 1 false)) :=
  ⟨by decide, ready_of_register ⟨recognises_of (by decide), by decide⟩ rfl,
   ready_of_register ⟨recognises_of (by decide), by decide⟩ rfl⟩
/-- For AllZeroMaskKeepsOrClears and AllOnesMaskIsNoMask. V18: FF00 acts as the mask 00 of a form with KL = 8; V14: FF as no mask. -/
theorem test_witness_uniform_masks :
    (∀ j < (Instr.vinsertf32x4Ymm (evexReg012 0 1 false)).kl, ((machine 0xFF00).k.get 1).getLsbD j = false) ∧
    (∀ j < (Instr.vinsertf32x4Ymm (evexReg012 0 1 true)).kl, ((machine 0xFF).k.get 1).getLsbD j = true) ∧
    completes (exec (.vinsertf32x4Ymm (evexReg012 0 1 false)) (machine 0xFF00)) = true ∧
    completes (exec (.vinsertf32x4Ymm (evexReg012 0 1 true)) (machine 0xFF)) = true := by decide +kernel
theorem test_witness_repeating :
    ∀ i ∈ registerForms, i.args.d ≠ i.args.s1 ∧ i.args.src2 ≠ .reg i.args.d := by decide

end Sys2Proof.Tests
end

section
/-! PROOFS. The primitives INSERT and MASKED as `spec/00_scope.md` R12 and R13 state them: a whole block or element at a
time, from the bit-by-bit laws `insertBlock_getLsbD` and `masked_getLsbD`. -/

namespace Sys2Proof.Machine

/-! ### INSERT (R12) -/

/-- The block that INSERT writes holds `src2`. -/
theorem insertBlock_extractLsb'_block {vl w : Nat} (src1 : BitVec vl) (src2 : BitVec w) (i : Nat)
    (hfit : w * i + w ≤ vl) : (insertBlock src1 src2 i).extractLsb' (w * i) w = src2 := by
  apply BitVec.eq_of_getLsbD_eq
  intro q hq
  have hin : w * i ≤ w * i + q ∧ w * i + q < w * i + w := by omega
  rw [BitVec.getLsbD_extractLsb', insertBlock_getLsbD _ _ _ _ (by omega), if_pos hin]
  simp [hq]

/-- A field that does not meet the block is `src1`'s. -/
theorem insertBlock_extractLsb'_outside {vl w : Nat} (src1 : BitVec vl) (src2 : BitVec w) (i start len : Nat)
    (hvl : start + len ≤ vl) (hout : start + len ≤ w * i ∨ w * i + w ≤ start) :
    (insertBlock src1 src2 i).extractLsb' start len = src1.extractLsb' start len := by
  apply BitVec.eq_of_getLsbD_eq
  intro q hq
  have hnot : ¬(w * i ≤ start + q ∧ start + q < w * i + w) := by omega
  rw [BitVec.getLsbD_extractLsb', BitVec.getLsbD_extractLsb', insertBlock_getLsbD _ _ _ _ (by omega), if_neg hnot]

/-- Settles O24: the block itself, the field below it and the field above it. -/
theorem insertReplacesOneBlock : Obligations.InsertReplacesOneBlock := by
  intro vl w sel src1 src2 hfit
  exact ⟨insertBlock_extractLsb'_block src1 src2 sel hfit,
    insertBlock_extractLsb'_outside src1 src2 sel _ _ (by omega) (.inl (by omega)),
    insertBlock_extractLsb'_outside src1 src2 sel _ _ (by omega) (.inr le_rfl)⟩

/-! ### MASKED (R13) -/

/-- R13: bit `q` of element `j`, `i + q` with `i = j * ES`, belongs to element `j`. -/
theorem element_mul_add_div {es q : Nat} (j : Nat) (hq : q < es) : (j * es + q) / es = j := by
  rw [Nat.mul_comm, Nat.mul_add_div (by omega), Nat.div_eq_of_lt hq, Nat.add_zero]

/-- Element `j` of MASKED is `t`'s when its mask bit is on, else it is 0 under zeroing and the old one under merging. -/
theorem masked_extractLsb'_element {vl es j : Nat} (old t : BitVec vl) (m : Option Opmask) (z : Bool)
    (hes : 0 < es) (hdvd : es ∣ vl) (hj : j < vl / es) :
    (masked es old t m z).extractLsb' (j * es) es =
      if m.all (·.getLsbD j) then t.extractLsb' (j * es) es
      else if z then 0 else old.extractLsb' (j * es) es := by
  have hend : (j + 1) * es ≤ vl := (Nat.le_div_iff_mul_le hes).mp hj
  apply BitVec.eq_of_getLsbD_eq
  intro q hq
  have hp : j * es + q < vl := by linarith
  rw [BitVec.getLsbD_extractLsb', masked_getLsbD _ _ _ _ _ hp hes hdvd, element_mul_add_div j hq]
  split
  · simp
  · cases z <;> simp

/-- MASKED reads no mask bit at KL = VL / ES or above: two masks that agree below it give the same result. -/
theorem masked_congr_mask {vl es : Nat} (old t : BitVec vl) (z : Bool) (hes : 0 < es) (hdvd : es ∣ vl)
    {k k' : Opmask} (hagree : ∀ j < vl / es, k.getLsbD j = k'.getLsbD j) :
    masked es old t (some k) z = masked es old t (some k') z := by
  apply BitVec.eq_of_getLsbD_eq
  intro p hp
  have hj : p / es < vl / es := Nat.div_lt_div_of_lt_of_dvd hdvd hp
  simp only [masked_getLsbD _ _ _ _ _ hp hes hdvd, Option.all_some, hagree _ hj]

/-- The loop's test of mask bit `j` is R13's condition "m = none or m[j] = 1". -/
theorem mask_all_iff (m : Option Opmask) (j : Nat) :
    m.all (·.getLsbD j) = true ↔ m = none ∨ ∃ k, m = some k ∧ k.getLsbD j = true := by
  cases m <;> simp

/-- The admitted triples of R13 have whole elements, KL = VL / ES of them. -/
theorem kl_eq_div_of_admitted {vl es kl : Nat}
    (h : (vl, es, kl) = (256, 32, 8) ∨ (vl, es, kl) = (512, 32, 16) ∨ (vl, es, kl) = (256, 64, 4) ∨
      (vl, es, kl) = (512, 64, 8)) : 0 < es ∧ es ∣ vl ∧ kl = vl / es := by
  obtain h | h | h | h := h <;> cases h <;> decide

/-- Settles O25: the two laws of MASKED at each admitted triple. -/
theorem maskedUpdatesElements : Obligations.MaskedUpdatesElements := by
  intro vl es kl htriple old t m z
  obtain ⟨hes, hdvd, rfl⟩ := kl_eq_div_of_admitted htriple
  refine ⟨fun j hj => ?_, fun k k' hagree => masked_congr_mask old t z hes hdvd hagree⟩
  rw [masked_extractLsb'_element old t m z hes hdvd hj]
  simp only [mask_all_iff]
  cases z <;> rfl

end Sys2Proof.Machine
end

section
/-! PROOFS. The immediate (`spec/30_encoding.md` R83): the encoder writes it last, and a meaning looks at nothing of it
but the block number that SEL makes of its low bits. -/

namespace Sys2Proof

/-! ### The last byte (R89) -/

theorem operandBytes_getLast? {nreg : Nat} (reg : BitVec 3) (src2 : Src2 nreg) (imm8 : Byte) :
    (operandBytes reg src2 imm8).getLast? = some imm8 :=
  List.getLast?_concat (l := _ :: src2.trail)

theorem encodeVex_getLast? (a : VexArgs) : (encodeVex a).getLast? = some a.imm8 := by
  simp [encodeVex, List.getLast?_append, List.getLast?_cons, operandBytes_getLast?]

theorem encodeEvex_getLast? (op : Byte) (w : Bool) (ll : BitVec 2) (a : EvexArgs) :
    (encodeEvex op w ll a).getLast? = some a.imm8 := by
  simp [encodeEvex, List.getLast?_append, List.getLast?_cons, operandBytes_getLast?]

theorem encode_getLast? (i : Instr) : (encode i).getLast? = some i.args.imm8 := by
  cases i with
  | vinsertf128 a => exact encodeVex_getLast? a
  | vinsertf32x4Ymm a => exact encodeEvex_getLast? _ _ _ a
  | vinsertf32x4Zmm a => exact encodeEvex_getLast? _ _ _ a
  | vinsertf64x2Ymm a => exact encodeEvex_getLast? _ _ _ a
  | vinsertf64x2Zmm a => exact encodeEvex_getLast? _ _ _ a
  | vinsertf32x8 a => exact encodeEvex_getLast? _ _ _ a
  | vinsertf64x4 a => exact encodeEvex_getLast? _ _ _ a

namespace Machine

/-! ### The block number (R11) -/

/-- The remainder by `2 ^ n` is made of the low `n` bits alone. -/
theorem toNat_mod_two_pow_congr {a b : Byte} (n : Nat) (h : ∀ p < n, a.getLsbD p = b.getLsbD p) :
    a.toNat % 2 ^ n = b.toNat % 2 ^ n := by
  apply Nat.eq_of_testBit_eq
  intro p
  by_cases hp : p < n
  · simpa [Nat.testBit_mod_two_pow, BitVec.testBit_toNat, hp] using h p hp
  · simp [Nat.testBit_mod_two_pow, hp]

/-- Of two blocks, imm8[0] names one. -/
theorem sel_congr_two {vl w : Nat} {a b : Byte} (hblocks : vl / w = 2) (h0 : a.getLsbD 0 = b.getLsbD 0) :
    sel vl w a = sel vl w b := by
  rw [sel, sel, hblocks]
  refine toNat_mod_two_pow_congr 1 fun p hp => ?_
  obtain rfl : p = 0 := by omega
  exact h0

/-- Of four blocks, imm8[1:0] names one. -/
theorem sel_congr_four {vl w : Nat} {a b : Byte} (hblocks : vl / w = 4) (h0 : a.getLsbD 0 = b.getLsbD 0)
    (h1 : a.getLsbD 1 = b.getLsbD 1) : sel vl w a = sel vl w b := by
  rw [sel, sel, hblocks]
  refine toNat_mod_two_pow_congr 2 fun p hp => ?_
  obtain rfl | rfl : p = 0 ∨ p = 1 := by omega
  · exact h0
  · exact h1

/-- R83: a zmm form of the 128-bit inserts has four blocks to name, every other form two. -/
theorem row_blocks (i : Instr) :
    i.row.vl / i.row.w = 2 ∨ (i.row.vl = 512 ∧ i.row.w = 128 ∧ i.row.vl / i.row.w = 4) := by
  cases i <;> (simp only [Instr.row]; decide)

/-- R83: the selector of a form reads imm8[0], and imm8[1] where the form has four blocks. -/
theorem sel_row_congr (i : Instr) {a b : Byte} (h0 : a.getLsbD 0 = b.getLsbD 0)
    (h1 : i.row.vl = 512 → i.row.w = 128 → a.getLsbD 1 = b.getLsbD 1) :
    sel i.row.vl i.row.w a = sel i.row.vl i.row.w b := by
  obtain htwo | ⟨hvl, hw, hfour⟩ := row_blocks i
  · exact sel_congr_two htwo h0
  · exact sel_congr_four hfour h0 (h1 hvl hw)

/-! ### A meaning as a function of its block number -/

/-- The meaning of `i` with the block number `blk` in place of the one its immediate names. -/
def execAt (blk : Nat) (i : Instr) (s : State) : Result State :=
  (checkOf i s).andThen fun _ => (sourceOf i s).andThen fun b =>
    .next (s.after i ((masked (elementSize i) (s.view i.row.vl i.args.d)
      (insertBlock (s.view i.row.vl i.args.s1) b blk) (s.writemask i.args.kn) i.args.z).setWidth 512))

theorem exec_eq_execAt (i : Instr) (s : State) : exec i s = execAt (sel i.row.vl i.row.w i.args.imm8) i s :=
  exec_shape i s

/-- Another immediate changes the block number and nothing else of a meaning. -/
theorem exec_withImm (i : Instr) (s : State) (imm8 : Byte) :
    exec (i.withImm imm8) s = execAt (sel i.row.vl i.row.w imm8) i s := by
  rw [exec_eq_execAt]
  cases i <;> rfl

/-- A fault comes from the checks or from the second source; the block number has no part in it. -/
theorem execAt_eq_fault_iff {blk : Nat} {i : Instr} {s : State} {f : Fault} :
    execAt blk i s = .fault f ↔
      checkOf i s = .fault f ∨ (checkOf i s = .next () ∧ sourceOf i s = .fault f) := by
  constructor
  · intro h
    obtain hcheck | ⟨_, hcheck, h⟩ := andThen_eq_fault h
    · exact .inl hcheck
    · obtain hsource | ⟨_, _, h⟩ := andThen_eq_fault h
      · exact .inr ⟨hcheck, hsource⟩
      · cases h
  · rintro (hcheck | ⟨hcheck, hsource⟩)
    · simp [execAt, hcheck]
    · simp [execAt, hcheck, hsource]

/-- Settles O28: the immediate is the last byte, a meaning depends on it through its block number only, and no fault
depends on the block number. -/
theorem immediateHighBitsIgnored : Obligations.ImmediateHighBitsIgnored := by
  intro i s imm8
  refine ⟨encode_getLast? i, fun h0 h1 => ?_, fun f => ?_⟩
  · rw [exec_withImm, exec_eq_execAt, sel_row_congr i h0 h1]
  · rw [exec_withImm, exec_eq_execAt, execAt_eq_fault_iff, execAt_eq_fault_iff]

end Machine

end Sys2Proof
end

section
/-! PROOFS. The legacy bytes before a VEX or EVEX byte (`spec/30_encoding.md` R71, R96 step 1), and VINSERTF128's
encoding with VEX.L = 0 behind them (`spec/40_vinsertf128.md` R111). -/

namespace Sys2Proof

/-! ### Accepted legacy bytes (R71) -/

/-- A segment override that none stands before is recorded. -/
theorem decodeFrom_segByte (g : SegOverride) (asz : Bool) (bs : List Byte) :
    decodeFrom { seg := none, asz32 := asz } false (g.byte :: bs) =
      decodeFrom { seg := some g, asz32 := asz } false bs := by
  cases g <;> rfl

/-- An address-size byte that none stands before is recorded. -/
theorem decodeFrom_addressSizeByte (seg : Option SegOverride) (bs : List Byte) :
    decodeFrom { seg := seg, asz32 := false } false (0x67 :: bs) =
      decodeFrom { seg := seg, asz32 := true } false bs := rfl

/-- Accepted legacy bytes, in either order, are what the rest of the encoding is decoded with. -/
theorem decode_bytesIn_append (p : Prefixes) (reversed : Bool) (bs : List Byte) :
    decode (p.bytesIn reversed ++ bs) = decodeFrom p false bs := by
  obtain ⟨seg, asz⟩ := p
  cases seg with
  | none => cases asz <;> cases reversed <;> rfl
  | some g =>
    cases asz with
    | false => cases reversed <;> exact decodeFrom_segByte g false bs
    | true =>
      cases reversed with
      | false => exact decodeFrom_segByte g false (0x67 :: bs)
      | true => exact decodeFrom_segByte g true bs

/-- Behind accepted legacy bytes, C4 begins a VEX encoding. -/
theorem decode_vex (p : Prefixes) (reversed : Bool) (bs : List Byte) :
    decode (p.bytesIn reversed ++ 0xC4 :: bs) = decodeVex p bs :=
  decode_bytesIn_append p reversed (0xC4 :: bs)

/-! ### VEX.L = 0 (R74, R111) -/

/-- With the map, pp and opcode of VINSERTF128, L = 0 raises #UD, before W or an operand is looked at. -/
theorem decodeVex_length_zero (p : Prefixes) {b1 b2 : Byte} (rest : List Byte) (hmap : b1.extractLsb' 0 5 = 3)
    (hpp : b2.extractLsb' 0 2 = 1) (hl : b2.getLsbD 2 = false) :
    decodeVex p (b1 :: b2 :: 0x18 :: rest) = .invalidOpcode :=
  (if_neg (by simp [hmap, hpp])).trans (if_pos hl)

namespace Machine

/-- R91, R168: bytes that raise #UD at decode end the step in that fault. -/
theorem step_of_decode_invalidOpcode {s : State} (hs : s.Steps) (hdecode : decode s.fetch = .invalidOpcode) :
    step s = .fault (.invalidOpcode s.rip) := by
  rw [step, launchRefusal_eq_none.2 hs, hdecode]
  rfl

/-- Settles O7: the decoder passes the legacy bytes to the VEX form, whose L = 0 raises #UD, and a step on such bytes
is that fault. -/
theorem vexLengthZeroRaisesInvalidOpcode : Obligations.VexLengthZeroRaisesInvalidOpcode := by
  intro p reversed b1 b2 rest hmap hpp _ hl
  have hdecode : decode (p.bytesIn reversed ++ 0xC4 :: b1 :: b2 :: 0x18 :: rest) = .invalidOpcode :=
    (decode_vex p reversed _).trans (decodeVex_length_zero p rest hmap hpp hl)
  refine ⟨hdecode, fun s hs hfetch => step_of_decode_invalidOpcode hs ?_⟩
  rw [hfetch, hdecode]

end Machine

end Sys2Proof
end

section
/-! PROOFS. What the masked columns of the opcode table see of an EVEX encoding (`spec/30_encoding.md` R90): the
map, W, pp, L'L and the opcode. -/

namespace Sys2Proof

/-- R75, R90: the masked P0 holds the fixed low half, map 011 among it. -/
theorem evexP0_masked : ∀ r x b r' : Bool,
    (BitVec.ofBool r ++ BitVec.ofBool x ++ BitVec.ofBool b ++ BitVec.ofBool r' ++ 0#2 ++ 3#2 : Byte) &&& 0x0F = 3 := by
  decide

/-- R76, R90: the masked P1 holds W, the fixed bit and pp. -/
theorem evexP1_masked : ∀ (w : Bool) (v : BitVec 4),
    (BitVec.ofBool w ++ v ++ 1#1 ++ 1#2 : Byte) &&& 0x87 = BitVec.ofBool w ++ 5#7 := by
  decide

/-- R77, R90: the masked P2 holds L'L and the zero bit b. -/
theorem evexP2_masked : ∀ (z v' : Bool) (ll : BitVec 2) (k : BitVec 3),
    (BitVec.ofBool z ++ ll ++ 0#1 ++ BitVec.ofBool v' ++ k : Byte) &&& 0x70 = 0#1 ++ ll ++ 0#5 := by
  decide

/-- R90: an EVEX encoding under the mask column. -/
theorem encodeEvex_masked (op : Byte) (w : Bool) (ll : BitVec 2) (a : EvexArgs) :
    List.zipWith (· &&& ·) ((encodeEvex op w ll a).drop a.pre.len) [0xFF, 0x0F, 0x87, 0x70, 0xFF] =
      [0x62, 3, BitVec.ofBool w ++ 5#7, 0#1 ++ ll ++ 0#5, op] := by
  rw [encodeEvex, List.drop_left' (Prefixes.bytes_length a.pre)]
  simp only [List.zipWith_cons_cons, List.zipWith_nil_right, evexP0_masked, evexP1_masked, evexP2_masked]
  have hop : op &&& 0xFF = op := BitVec.and_allOnes
  rw [hop]
  rfl

/-- The encoding of an EVEX form carries its row's selecting bits. -/
theorem selectedBy_encode_of_evex {i : Instr} {op : Byte} {w : Bool} {ll : BitVec 2} {a : EvexArgs}
    (hargs : i.args = a) (henc : encode i = encodeEvex op w ll a) (hevex : i.row.evex = true)
    (hmatch : i.rowMatch = [0x62, 3, BitVec.ofBool w ++ 5#7, 0#1 ++ ll ++ 0#5, op]) :
    i.selectedBy (encode i) = true := by
  rw [Instr.selectedBy, Instr.rowMask, if_pos hevex, hargs, henc, encodeEvex_masked, hmatch, beq_self_eq_true]

end Sys2Proof
end

section
/-! PROOFS. Where an instruction is ready it completes, for the checks pass where the form is enabled and the second
source is read where its memory operand is admitted; and what completes has written `State.insertedBit`, bit by bit
(`spec/00_scope.md` R11 to R14). -/

namespace Sys2Proof.Machine

/-! ### The checks (R161, R162) -/

theorem recognisesVex_iff (m : Mode) : m.recognisesVex = true ↔ m ≠ .realAddress ∧ m ≠ .virtual8086 := by
  cases m <;> decide

/-- A field is all ones when each of its bits is on. -/
theorem extractLsb'_eq_allOnes_iff {w : Nat} (x : BitVec w) (start len : Nat) :
    x.extractLsb' start len = BitVec.allOnes len ↔ ∀ j < len, x.getLsbD (start + j) = true := by
  constructor
  · intro h j hj
    simpa [hj] using congrArg (·.getLsbD j) h
  · intro h
    apply BitVec.eq_of_getLsbD_eq
    intro j hj
    simp [hj, h j hj]

theorem avxEnabled_iff (s : State) :
    s.avxEnabled = true ↔ s.xcr0.getLsbD 1 = true ∧ s.xcr0.getLsbD 2 = true := by
  rw [State.avxEnabled, beq_iff_eq, show (3 : BitVec 2) = BitVec.allOnes 2 from rfl, extractLsb'_eq_allOnes_iff]
  refine ⟨fun h => ⟨h 0 (by decide), h 1 (by decide)⟩, ?_⟩
  rintro ⟨h1, h2⟩ j hj
  interval_cases j <;> assumption

theorem avx512Enabled_iff (s : State) :
    s.avx512Enabled = true ↔ s.xcr0.getLsbD 5 = true ∧ s.xcr0.getLsbD 6 = true ∧ s.xcr0.getLsbD 7 = true := by
  rw [State.avx512Enabled, beq_iff_eq, show (7 : BitVec 3) = BitVec.allOnes 3 from rfl, extractLsb'_eq_allOnes_iff]
  refine ⟨fun h => ⟨h 0 (by decide), h 1 (by decide), h 2 (by decide)⟩, ?_⟩
  rintro ⟨h5, h6, h7⟩ j hj
  interval_cases j <;> assumption

theorem maskWellFormed_iff (kn : Fin 8) (z : Bool) : maskWellFormed kn z = true ↔ (kn = 0 → z = false) := by
  cases z <;> simp [maskWellFormed]

/-- The checks of an enabled form pass. -/
theorem checkOf_of_enables {i : Instr} {s : State} (h : s.Enables i) : checkOf i s = .next () := by
  obtain ⟨⟨hmode, hcpuid, hosxsave, havx, havx512, hmask⟩, hts⟩ := h
  have hts : s.ts = false := hts
  have hosxsave : s.osxsave = true := hosxsave
  have hform : checkForm i.row.evex i.row.needs s = .next () := by
    have hgate : (!i.row.evex || s.avx512Enabled) = true := by
      cases hevex : i.row.evex with
      | false => rfl
      | true => exact (avx512Enabled_iff s).2 (havx512 hevex)
    simp [checkForm, (recognisesVex_iff _).2 hmode, List.all_eq_true.2 hcpuid, hosxsave,
      (avxEnabled_iff s).2 havx, hgate, hts]
  cases hevex : i.row.evex with
  | false => simpa [checkOf, hevex] using hform
  | true => simpa [checkOf, hevex, checkEvex, (maskWellFormed_iff _ _).2 hmask] using hform

/-! ### The second source (R51, R57) -/

/-- An admitted read gives the bytes at its address. -/
theorem memRead_of_admits {w : Nat} {addr : Word64} {s : State} (stack : Bool) (h : s.Admits addr (w / 8)) :
    memRead w stack addr s = .next (Memory.load w s.mem addr.toNat (w / 8)) := by
  obtain ⟨_, hwrap, hcanonical, hreadable, hac⟩ := h
  have hcanonical : s.canonicalRange addr.toNat (w / 8) = true := by simpa [State.canonicalRange] using hcanonical
  have hreadable : s.readable addr.toNat (w / 8) = true := by simpa [State.readable] using hreadable
  rw [← acEnabled_iff] at hac
  simpa [memRead, hcanonical, hreadable, hac] using hwrap

/-- A read that goes on gives the bytes at its address. -/
theorem memRead_next {w : Nat} {stack : Bool} {addr : Word64} {s : State} {b : BitVec w}
    (h : memRead w stack addr s = .next b) : b = Memory.load w s.mem addr.toNat (w / 8) := by
  obtain ⟨h', _⟩ | ⟨h', _⟩ | ⟨h', _⟩ | ⟨h', _⟩ | ⟨h', _⟩ := memRead_cases w stack addr s
  all_goals
    rw [h'] at h
    cases h
  rfl

/-- The second source is read when the memory operand, if there is one, is admitted. -/
theorem sourceOf_of_admits {i : Instr} {s : State}
    (h : ∀ m, i.mem? = some m → s.Admits (i.linear m s) i.width) : ∃ b, sourceOf i s = .next b := by
  cases hsrc : i.args.src2 with
  | reg n => exact ⟨s.view i.row.w n, by rw [sourceOf, hsrc]; rfl⟩
  | mem m =>
    have hm := h m (by rw [Instr.mem?, hsrc])
    have hread := memRead_of_admits (inStackSegment i.args.pre m) hm
    exact ⟨_, by rw [sourceOf, hsrc, readSrc2_mem _ _ _ _ _ _ _ hm.mode]; exact hread⟩

/-- Bit `q` of the second source is the bit of the register or of the bytes at the operand's address. -/
theorem sourceOf_getLsbD {i : Instr} {s : State} {b : BitVec i.row.w} (h : sourceOf i s = .next b) {q : Nat}
    (hq : q < i.row.w) : b.getLsbD q = s.src2Bit i q := by
  cases hsrc : i.args.src2 with
  | reg n =>
    rw [sourceOf, hsrc, readSrc2_reg, id] at h
    cases h
    simpa only [State.src2Bit, hsrc] using view_getLsbD s i.row.w n q hq
  | mem m =>
    rw [sourceOf, hsrc] at h
    by_cases hmode : s.mode = .bits64
    · rw [readSrc2_mem _ _ _ _ _ _ _ hmode] at h
      obtain ⟨_, _, _, _, _, hbytes, _⟩ := row_lengths i
      have hwidth : 8 * (i.row.w / 8) = i.row.w := Nat.mul_div_cancel' hbytes
      rw [memRead_next h, Memory.load_getLsbD _ _ _ _ _ hwidth.le, hwidth]
      simp [State.src2Bit, hsrc, hq, Instr.linear]
    · rw [readSrc2_mem_outside64 _ _ _ _ _ _ _ hmode] at h
      cases h

/-! ### The value written (R11 to R14) -/

/-- Inside block `blk`, a bit INSERT takes from SRC2 is the bit at its offset in the block. -/
theorem insertBlock_getLsbD_of_sourceOf {i : Instr} {s : State} {b : BitVec i.row.w} (h : sourceOf i s = .next b)
    (src1 : BitVec i.row.vl) (blk : Nat) {p : Nat} (hp : p < i.row.vl) :
    (insertBlock src1 b blk).getLsbD p =
      if p / i.row.w = blk then s.src2Bit i (p % i.row.w) else src1.getLsbD p := by
  obtain ⟨_, _, hw, _⟩ := row_lengths i
  have hblock : p / i.row.w = blk ↔ i.row.w * blk ≤ p ∧ p < i.row.w * blk + i.row.w := by
    rw [Nat.div_eq_iff hw, Nat.mul_comm blk]
    omega
  rw [insertBlock_getLsbD _ _ _ _ hp, if_congr hblock.symm rfl rfl]
  by_cases hin : p / i.row.w = blk
  · rw [if_pos hin, if_pos hin, ← hin, ← Nat.mod_eq_sub_mul_div, sourceOf_getLsbD h (Nat.mod_lt p hw)]
  · rw [if_neg hin, if_neg hin]

/-- The value a form writes is, bit by bit, the spec's. -/
theorem resultOf_getLsbD {i : Instr} {s : State} {b : BitVec i.row.w} (h : sourceOf i s = .next b) {p : Nat}
    (hp : p < 512) : ((resultOf i s b).setWidth 512).getLsbD p =
      s.insertedBit i (elementSize i) (sel i.row.vl i.row.w i.args.imm8) p := by
  obtain ⟨hes, hdvd, _⟩ := row_lengths i
  by_cases hvl : i.row.vl ≤ p
  · simp [State.insertedBit, hvl]
  · have hvl' : p < i.row.vl := Nat.lt_of_not_le hvl
    rw [BitVec.getLsbD_setWidth, resultOf, masked_getLsbD _ _ _ _ _ hvl' hes hdvd,
      insertBlock_getLsbD_of_sourceOf h _ _ hvl', view_getLsbD _ _ _ _ hvl', view_getLsbD _ _ _ _ hvl',
      State.insertedBit, if_neg hvl, if_congr (writemask_all s _ _) rfl rfl, decide_eq_true hp, Bool.true_and]

/-- What completes writes the spec's value, bit by bit, into the destination. -/
theorem exec_next_insertedBit {i : Instr} {s t : State} (h : exec i s = .next t) :
    ∃ r : VecReg, t = s.after i r ∧
      ∀ p < 512, r.getLsbD p = s.insertedBit i (elementSize i) (sel i.row.vl i.row.w i.args.imm8) p := by
  rw [exec_shape] at h
  obtain ⟨_, _, h⟩ := andThen_eq_next h
  obtain ⟨b, hb, h⟩ := andThen_eq_next h
  cases h
  exact ⟨_, rfl, fun p hp => resultOf_getLsbD hb hp⟩

/-- A ready instruction completes. -/
theorem exec_completes_of_ready {i : Instr} {s : State} (h : s.Ready i) : ∃ t, exec i s = .next t := by
  obtain ⟨henables, hadmits⟩ := h
  obtain ⟨b, hb⟩ := sourceOf_of_admits hadmits
  exact ⟨_, by rw [exec_shape, checkOf_of_enables henables, hb, andThen_next, andThen_next]⟩

/-- R11: the block number of a form with `n` blocks. -/
theorem sel_row_eq_mod {i : Instr} {n : Nat} (hblocks : i.row.vl / i.row.w = n) :
    sel i.row.vl i.row.w i.args.imm8 = i.args.imm8.toNat % n := by
  rw [sel, hblocks]

/-- A ready form with `n` blocks completes with the spec's value. -/
theorem exec_of_ready {i : Instr} {s : State} {n : Nat} (hblocks : i.row.vl / i.row.w = n) (h : s.Ready i) :
    ∃ r : VecReg, exec i s = .next (s.after i r) ∧
      ∀ p < 512, r.getLsbD p = s.insertedBit i (elementSize i) (i.args.imm8.toNat % n) p := by
  obtain ⟨t, ht⟩ := exec_completes_of_ready h
  obtain ⟨r, rfl, hr⟩ := exec_next_insertedBit ht
  exact ⟨r, ht, by simpa only [sel_row_eq_mod hblocks] using hr⟩

end Sys2Proof.Machine
end

section
/-! PROOFS. The four 128-bit EVEX inserts (`spec/41_vinsertf32x4_vinsertf64x2.md` R120 to R124). -/

namespace Sys2Proof.Machine

/-- Settles O17: of the two blocks imm8[0] names one. -/
theorem vinsertf32x4YmmInserts : Obligations.Vinsertf32x4YmmInserts := fun _ _ hready =>
  ⟨selectedBy_encode_of_evex rfl rfl rfl rfl, exec_of_ready (by decide : 256 / 128 = 2) hready⟩

/-- Settles O18: of the four blocks imm8[1:0] names one. -/
theorem vinsertf32x4ZmmInserts : Obligations.Vinsertf32x4ZmmInserts := fun _ _ hready =>
  ⟨selectedBy_encode_of_evex rfl rfl rfl rfl, exec_of_ready (by decide : 512 / 128 = 4) hready⟩

/-- Settles O19: as O17, with 64-bit elements. -/
theorem vinsertf64x2YmmInserts : Obligations.Vinsertf64x2YmmInserts := fun _ _ hready =>
  ⟨selectedBy_encode_of_evex rfl rfl rfl rfl, exec_of_ready (by decide : 256 / 128 = 2) hready⟩

/-- Settles O20: as O18, with 64-bit elements. -/
theorem vinsertf64x2ZmmInserts : Obligations.Vinsertf64x2ZmmInserts := fun _ _ hready =>
  ⟨selectedBy_encode_of_evex rfl rfl rfl rfl, exec_of_ready (by decide : 512 / 128 = 4) hready⟩

/-! ### Elements (R124) -/

/-- Two vectors that agree on the bits of a field have the same field. -/
theorem extractLsb'_congr {w start len : Nat} {x y : BitVec w}
    (h : ∀ q < len, x.getLsbD (start + q) = y.getLsbD (start + q)) :
    x.extractLsb' start len = y.extractLsb' start len := by
  apply BitVec.eq_of_getLsbD_eq
  intro q hq
  rw [BitVec.getLsbD_extractLsb', BitVec.getLsbD_extractLsb', h q hq]

/-- Bit `q` of element `j` lies in block `j / e`, where a block has `e` elements, and there in element `j % e`. -/
theorem element_bit_block {es w j q : Nat} (hdvd : es ∣ w) (hq : q < es) :
    (j * es + q) / w = j / (w / es) ∧ (j * es + q) % w = j % (w / es) * es + q := by
  obtain ⟨e, rfl⟩ := hdvd
  have hmod : (j * es + q) % es = q := by rw [Nat.mul_add_mod', Nat.mod_eq_of_lt hq]
  rw [Nat.mul_div_cancel_left e (by omega), ← Nat.div_div_eq_div_mul, Nat.mod_mul, element_mul_add_div j hq, hmod]
  exact ⟨rfl, by ring⟩

/-- A form's block holds whole elements. -/
theorem elementSize_dvd_width (i : Instr) : elementSize i ∣ i.row.w := by
  cases i <;> (simp only [Instr.row, elementSize]; decide)

/-- Bit `q` of element `j` of the destination, its mask bit and its block being those of the element. -/
theorem exec_next_element_bit {i : Instr} {s t : State} (h : exec i s = .next t) {j q : Nat}
    (hj : j < i.row.vl / elementSize i) (hq : q < elementSize i) :
    (t.v.get i.args.d).getLsbD (j * elementSize i + q) =
      if i.args.kn = 0 ∨ (s.k.get i.args.kn).getLsbD j = true then
        if j / (i.row.w / elementSize i) = sel i.row.vl i.row.w i.args.imm8 then
          s.src2Bit i (j % (i.row.w / elementSize i) * elementSize i + q)
        else (s.v.get i.args.s1).getLsbD (j * elementSize i + q)
      else if i.args.z then false
      else (s.v.get i.args.d).getLsbD (j * elementSize i + q) := by
  obtain ⟨r, rfl, hr⟩ := exec_next_insertedBit h
  obtain ⟨hes, _, _, _, hvl, _⟩ := row_lengths i
  have hend : (j + 1) * elementSize i ≤ i.row.vl := (Nat.le_div_iff_mul_le hes).mp hj
  have hp : j * elementSize i + q < i.row.vl := by linarith
  obtain ⟨hdiv, hmod⟩ := element_bit_block (j := j) (elementSize_dvd_width i) hq
  have hget : (s.after i r).v.get i.args.d = r := by rw [State.after, get_set, if_pos rfl]
  rw [hget, hr _ (hp.trans_le hvl), State.insertedBit, if_neg hp.not_ge, hdiv, hmod, element_mul_add_div j hq]

/-- Settles O26: each clause is one branch of `exec_next_element_bit`, a block being 128 / ES elements. -/
theorem elementsOfThe128BitInserts : Obligations.ElementsOfThe128BitInserts := by
  intro a s t i es blk hform hexec j hj on inBlock
  obtain ⟨hargs, hw, hes, hblk⟩ : i.args = a ∧ i.row.w = 128 ∧ elementSize i = es ∧
      sel i.row.vl i.row.w i.args.imm8 = blk := by
    obtain ⟨rfl, rfl, rfl⟩ | ⟨rfl, rfl, rfl⟩ | ⟨rfl, rfl, rfl⟩ | ⟨rfl, rfl, rfl⟩ := hform
    · exact ⟨rfl, rfl, rfl, sel_row_eq_mod (by decide : 256 / 128 = 2)⟩
    · exact ⟨rfl, rfl, rfl, sel_row_eq_mod (by decide : 512 / 128 = 4)⟩
    · exact ⟨rfl, rfl, rfl, sel_row_eq_mod (by decide : 256 / 128 = 2)⟩
    · exact ⟨rfl, rfl, rfl, sel_row_eq_mod (by decide : 512 / 128 = 4)⟩
  subst hargs hes
  have he : 0 < 128 / elementSize i :=
    Nat.div_pos (Nat.le_of_dvd (by decide) (hw ▸ elementSize_dvd_width i)) (row_lengths i).1
  have hbit {q : Nat} (hq : q < elementSize i) := exec_next_element_bit hexec hj hq
  rw [hblk, hw] at hbit
  have hin : inBlock ↔ j / (128 / elementSize i) = blk := by
    rw [Nat.div_eq_iff he, Nat.mul_comm blk]
    omega
  refine ⟨fun hon hblock q hq => ?_, fun hon hblock => ?_, fun hoff hz => ?_, fun hoff hz => ?_⟩
  · rw [hbit hq, if_pos hon, if_pos (hin.1 hblock), Nat.mod_eq_sub_mul_div, hin.1 hblock]
  · exact extractLsb'_congr fun q hq => by rw [hbit hq, if_pos hon, if_neg (hblock ∘ hin.2)]
  · have hzero := extractLsb'_congr (y := 0#512) fun q hq => by
      rw [hbit hq, if_neg hoff, if_pos hz, BitVec.getLsbD_zero]
    exact hzero.trans BitVec.extractLsb'_zero
  · exact extractLsb'_congr fun q hq => by rw [hbit hq, if_neg hoff, if_neg (by simp [hz])]

end Sys2Proof.Machine
end

section
/-! PROOFS. The two 256-bit inserts (`spec/42_vinsertf32x8_vinsertf64x4.md` R140 to R142). -/

namespace Sys2Proof.Machine

/-- Settles O21: of the two halves imm8[0] names one. -/
theorem vinsertf32x8Inserts : Obligations.Vinsertf32x8Inserts := fun _ _ hready =>
  ⟨selectedBy_encode_of_evex rfl rfl rfl rfl, exec_of_ready (by decide : 512 / 256 = 2) hready⟩

/-- Settles O22: as O21, with 64-bit elements. -/
theorem vinsertf64x4Inserts : Obligations.Vinsertf64x4Inserts := fun _ _ hready =>
  ⟨selectedBy_encode_of_evex rfl rfl rfl rfl, exec_of_ready (by decide : 512 / 256 = 2) hready⟩

/-! ### Elements (R142) -/

section
variable {i : Instr} {s t : State} (h : exec i s = .next t) {j : Nat} (hj : j < i.row.vl / elementSize i)
include h hj

/-- An element whose mask bit is on, outside the block named, is the first source's. -/
theorem exec_next_element_src1 (hon : i.args.kn = 0 ∨ (s.k.get i.args.kn).getLsbD j = true)
    (hout : j / (i.row.w / elementSize i) ≠ sel i.row.vl i.row.w i.args.imm8) :
    (t.v.get i.args.d).extractLsb' (j * elementSize i) (elementSize i) =
      (s.v.get i.args.s1).extractLsb' (j * elementSize i) (elementSize i) :=
  extractLsb'_congr fun _ hq => by rw [exec_next_element_bit h hj hq, if_pos hon, if_neg hout]

/-- An element whose mask bit is off is zero under zeroing. -/
theorem exec_next_element_zeroed (hoff : ¬(i.args.kn = 0 ∨ (s.k.get i.args.kn).getLsbD j = true))
    (hz : i.args.z = true) : (t.v.get i.args.d).extractLsb' (j * elementSize i) (elementSize i) = 0 := by
  have hzero := extractLsb'_congr (y := 0#512) fun _ hq => by
    rw [exec_next_element_bit h hj hq, if_neg hoff, if_pos hz, BitVec.getLsbD_zero]
  exact hzero.trans BitVec.extractLsb'_zero

/-- An element whose mask bit is off is the old one under merging. -/
theorem exec_next_element_kept (hoff : ¬(i.args.kn = 0 ∨ (s.k.get i.args.kn).getLsbD j = true))
    (hz : i.args.z = false) : (t.v.get i.args.d).extractLsb' (j * elementSize i) (elementSize i) =
      (s.v.get i.args.d).extractLsb' (j * elementSize i) (elementSize i) :=
  extractLsb'_congr fun _ hq => by rw [exec_next_element_bit h hj hq, if_neg hoff, if_neg (by simp [hz])]

end

/-- R142: of two blocks of `half` elements each, element `j` lies in the one that imm8[0] names. -/
theorem div_half_eq_iff (imm8 : Byte) {j half : Nat} (hj : j < 2 * half) :
    j / half = imm8.toNat % 2 ↔ if imm8.getLsbD 0 then half ≤ j else j < half := by
  have hbit : imm8.getLsbD 0 = true ↔ imm8.toNat % 2 = 1 := by simp [BitVec.getLsbD]
  rw [Nat.div_eq_iff (by omega)]
  split
  case isTrue hhigh =>
    rw [hbit.1 hhigh]
    omega
  case isFalse hlow =>
    rw [Nat.mod_two_not_eq_one.1 (hlow ∘ hbit.2)]
    omega

/-- Settles O27: an element's clause depends on its mask bit and on the half it lies in, by the lemmas above. -/
theorem elementsOfThe256BitInserts : Obligations.ElementsOfThe256BitInserts := by
  intro a s t i es hform hexec j hj half on inBlock
  obtain ⟨hargs, hvl, hw, hes, hsel, htwo⟩ : i.args = a ∧ i.row.vl = 512 ∧ i.row.w = 256 ∧ elementSize i = es ∧
      sel i.row.vl i.row.w i.args.imm8 = a.imm8.toNat % 2 ∧ 512 / es = 2 * half := by
    obtain ⟨rfl, rfl⟩ | ⟨rfl, rfl⟩ := hform <;>
      exact ⟨rfl, rfl, rfl, rfl, sel_row_eq_mod (by decide : 512 / 256 = 2), by decide⟩
  subst hargs hes
  have hin : j / (i.row.w / elementSize i) = sel i.row.vl i.row.w i.args.imm8 ↔ inBlock := by
    rw [hsel, hw]
    exact div_half_eq_iff _ (htwo ▸ hj)
  rw [← hvl] at hj
  refine ⟨fun hon hblock q hq => ?_, fun hon hblock => ?_, exec_next_element_zeroed hexec hj,
    exec_next_element_kept hexec hj⟩
  · rw [exec_next_element_bit hexec hj hq, if_pos hon, if_pos (hin.2 hblock), hw]
  · exact exec_next_element_src1 hexec hj hon (hblock ∘ hin.1)

end Sys2Proof.Machine
end

section
/-! PROOFS. What no form does or depends on (`spec/60_exceptions.md` R167): #XM, MXCSR, CR4 beyond OSXSAVE, and data as
a reason to fault. -/

namespace Sys2Proof.Machine

/-- No exception of R160 is #XM. -/
theorem Fault.vector_ne_simdFloatingPoint (f : Fault) : f.vector ≠ 19 := by
  cases f <;> simp [Fault.vector]

/-! ### Changes of state that an instruction carries along -/

/-- A meaning carries a change `g` of its state along when the checks and the second source do not see it and it
passes through the write. -/
theorem exec_eq_mapNext {g : State → State} {i : Instr} {s : State} (hcheck : checkOf i (g s) = checkOf i s)
    (hsource : sourceOf i (g s) = sourceOf i s)
    (hwrite : ∀ b, (g s).after i ((resultOf i (g s) b).setWidth 512) = g (s.after i ((resultOf i s b).setWidth 512))) :
    exec i (g s) = mapNext g (exec i s) := by
  simp only [exec_shape, hcheck, hsource, hwrite]
  cases checkOf i s with
  | next _ => cases sourceOf i s <;> rfl
  | fault f => rfl
  | refused r => rfl

theorem exec_mxcsr (i : Instr) (s : State) (c : BitVec 32) :
    exec i { s with mxcsr := c } = mapNext (fun t => { t with mxcsr := c }) (exec i s) :=
  exec_eq_mapNext (g := fun t => { t with mxcsr := c }) rfl rfl fun _ => rfl

/-- The checks read CR4 through OSXSAVE only (R161). -/
theorem checkOf_cr4 (i : Instr) {s : State} {c : Word64} (h : c.getLsbD 18 = s.cr4.getLsbD 18) :
    checkOf i { s with cr4 := c } = checkOf i s := by
  have hosxsave : State.osxsave { s with cr4 := c } = s.osxsave := h
  have hform (evex : Bool) (needs : List Feature) :
      checkForm evex needs { s with cr4 := c } = checkForm evex needs s := by
    simp only [checkForm, hosxsave]
    rfl
  simp only [checkOf, checkEvex, hform]
  rfl

theorem exec_cr4 (i : Instr) {s : State} {c : Word64} (h : c.getLsbD 18 = s.cr4.getLsbD 18) :
    exec i { s with cr4 := c } = mapNext (fun t => { t with cr4 := c }) (exec i s) :=
  exec_eq_mapNext (g := fun t => { t with cr4 := c }) (checkOf_cr4 i h) rfl fun _ => rfl

/-! ### Data never faults -/

/-- A read faults by its address range alone: a byte of it is not canonical (R163, R164), or all are and one is not
readable (R165). -/
theorem memRead_eq_fault_iff {w : Nat} {stack : Bool} {addr : Word64} {s : State} {f : Fault} :
    memRead w stack addr s = .fault f ↔ addr.toNat + w / 8 ≤ 2 ^ 64 ∧
      ((s.canonicalRange addr.toNat (w / 8) = false ∧
          f = if stack then .stackSegment s.rip else .generalProtection s.rip) ∨
        (s.canonicalRange addr.toNat (w / 8) = true ∧ s.readable addr.toNat (w / 8) = false ∧
          f = .pageFault addr (w / 8) s.rip)) := by
  obtain ⟨h, _, hcanonical, hreadable, _⟩ | ⟨h, hwrap⟩ | ⟨h, hfits, hcanonical⟩ |
    ⟨h, hfits, hcanonical, hreadable⟩ | ⟨h, _, hcanonical, hreadable, _⟩ := memRead_cases w stack addr s
  · simp [h, hcanonical, hreadable]
  · exact iff_of_false (by simp [h]) fun ⟨hfits, _⟩ => hfits.not_gt hwrap
  · rw [h, and_iff_right hfits]
    simpa [hcanonical] using eq_comm
  · rw [h, and_iff_right hfits]
    simpa [hcanonical, hreadable] using eq_comm
  · simp [h, hcanonical, hreadable]

/-- A register source never faults and a read faults by its address, so no vector register and no byte of memory
decides a fault of the second source. -/
theorem sourceOf_data_eq_fault_iff (i : Instr) (s : State) (v : Vector VecReg 32) (m : Memory) (f : Fault) :
    sourceOf i { s with v := v, mem := m } = .fault f ↔ sourceOf i s = .fault f := by
  rw [sourceOf, sourceOf]
  cases i.args.src2 with
  | reg n => simp
  | mem op =>
    by_cases hmode : s.mode = .bits64
    · rw [readSrc2_mem _ _ _ _ _ _ _ hmode, readSrc2_mem _ _ _ _ _ _ { s with v := v, mem := m } hmode,
        memRead_eq_fault_iff, memRead_eq_fault_iff]
      rfl
    · rw [readSrc2_mem_outside64 _ _ _ _ _ _ _ hmode,
        readSrc2_mem_outside64 _ _ _ _ _ _ { s with v := v, mem := m } hmode]

theorem exec_data_eq_fault_iff (i : Instr) (s : State) (v : Vector VecReg 32) (m : Memory) (f : Fault) :
    exec i { s with v := v, mem := m } = .fault f ↔ exec i s = .fault f := by
  have hcheck : checkOf i { s with v := v, mem := m } = checkOf i s := rfl
  rw [exec_eq_execAt, exec_eq_execAt, execAt_eq_fault_iff, execAt_eq_fault_iff, hcheck, sourceOf_data_eq_fault_iff]

/-- Settles O45: #XM is no exception of the family, what completes keeps MXCSR, the checks and the second source see
neither MXCSR nor CR4 beyond OSXSAVE, and faults come from the checks and the operand's address. -/
theorem noSimdFloatingPointException : Obligations.NoSimdFloatingPointException := by
  intro i s
  refine ⟨fun f _ => f.vector_ne_simdFloatingPoint, fun t hnext => ?_, exec_mxcsr i s, fun _ => exec_cr4 i,
    exec_data_eq_fault_iff i s⟩
  obtain ⟨r, rfl⟩ := exec_next hnext
  rfl

end Sys2Proof.Machine
end

section
/-! PROOFS. The fields of an encoding (`spec/30_encoding.md` R74 to R85): a byte is the fields its layout puts together
exactly when each field of it is the one named. -/

namespace Sys2Proof

/-! ### Layouts of a byte -/

/-- R78, R81: two bits and twice three, the layout of ModRM and SIB. -/
theorem eq_append_2_3_3_iff {c : Byte} {hi : BitVec 2} {mid lo : BitVec 3} :
    c = hi ++ mid ++ lo ↔ c.extractLsb' 6 2 = hi ∧ c.extractLsb' 3 3 = mid ∧ c.extractLsb' 0 3 = lo := by
  constructor
  · revert hi mid lo
    rintro hi mid lo rfl
    revert hi mid lo
    decide
  · rintro ⟨rfl, rfl, rfl⟩
    revert c
    decide

/-- The byte after C4 (R74). -/
def vexB1 (r x b : Bool) : Byte := BitVec.ofBool (!r) ++ BitVec.ofBool (!x) ++ BitVec.ofBool (!b) ++ 3#5

theorem eq_vexB1_iff {c : Byte} {r x b : Bool} : c = vexB1 r x b ↔
    c.extractLsb' 0 5 = 3 ∧ (!c.getLsbD 7) = r ∧ (!c.getLsbD 6) = x ∧ (!c.getLsbD 5) = b := by
  constructor
  · rintro rfl
    revert r x b
    decide
  · rintro ⟨h, rfl, rfl, rfl⟩
    revert c
    decide

/-- The second byte after C4, with W = 0 and L = 1 (R74). -/
def vexB2 (s1 : Fin 16) : Byte := 0#1 ++ ~~~ BitVec.ofNat 4 s1.val ++ 1#1 ++ 1#2

theorem eq_vexB2_iff {c : Byte} {s1 : Fin 16} : c = vexB2 s1 ↔
    c.extractLsb' 0 2 = 1 ∧ c.getLsbD 2 = true ∧ c.getLsbD 7 = false ∧ (~~~ c.extractLsb' 3 4).toFin = s1 := by
  constructor
  · rintro rfl
    revert s1
    decide
  · rintro ⟨hpp, hl, hw, rfl⟩
    revert c
    decide

/-- P0 of an EVEX encoding (R75). -/
def evexP0 (r x b r' : Bool) : Byte :=
  BitVec.ofBool (!r) ++ BitVec.ofBool (!x) ++ BitVec.ofBool (!b) ++ BitVec.ofBool (!r') ++ 0#2 ++ 3#2

theorem eq_evexP0_iff {c : Byte} {r x b r' : Bool} : c = evexP0 r x b r' ↔
    c.extractLsb' 2 2 = 0 ∧ c.extractLsb' 0 2 = 3 ∧ (!c.getLsbD 7) = r ∧ (!c.getLsbD 6) = x ∧ (!c.getLsbD 5) = b ∧
      (!c.getLsbD 4) = r' := by
  constructor
  · rintro rfl
    revert r x b r'
    decide
  · rintro ⟨h2, h0, rfl, rfl, rfl, rfl⟩
    revert c
    decide

/-- P1 of an EVEX encoding (R76), `v` the low four bits of the first source. -/
def evexP1 (w : Bool) (v : BitVec 4) : Byte := BitVec.ofBool w ++ ~~~ v ++ 1#1 ++ 1#2

theorem eq_evexP1_iff {c : Byte} {w : Bool} {v : BitVec 4} : c = evexP1 w v ↔
    c.getLsbD 2 = true ∧ c.extractLsb' 0 2 = 1 ∧ c.getLsbD 7 = w ∧ ~~~ c.extractLsb' 3 4 = v := by
  constructor
  · rintro rfl
    revert w v
    decide
  · rintro ⟨h2, hpp, rfl, rfl⟩
    revert c
    decide

/-- P2 of an EVEX encoding with b = 0 (R77, R84), `v'` the top bit of the first source. -/
def evexP2 (z : Bool) (ll : BitVec 2) (v' : Bool) (kn : Fin 8) : Byte :=
  BitVec.ofBool z ++ ll ++ 0#1 ++ BitVec.ofBool (!v') ++ BitVec.ofNat 3 kn.val

theorem eq_evexP2_iff {c : Byte} {z v' : Bool} {ll : BitVec 2} {kn : Fin 8} : c = evexP2 z ll v' kn ↔
    c.getLsbD 4 = false ∧ c.getLsbD 7 = z ∧ c.extractLsb' 5 2 = ll ∧ (c.extractLsb' 0 3).toFin = kn ∧
      (!c.getLsbD 3) = v' := by
  constructor
  · rintro rfl
    revert z v' ll kn
    decide
  · rintro ⟨hb, rfl, rfl, rfl, rfl⟩
    revert c
    decide

/-! ### Register numbers -/

/-- R80: the first source's five bits. -/
theorem vvvv_eq_iff : ∀ {hi : Bool} {lo : BitVec 4} {n : Fin 32},
    (BitVec.ofBool hi ++ lo).toFin = n ↔ hi = n.val.testBit 4 ∧ lo = BitVec.ofNat 4 n.val := by
  decide

theorem reg4_eq_iff : ∀ {hi : Bool} {lo : BitVec 3} {n : Fin 16},
    reg4 hi lo = n ↔ hi = n.val.testBit 3 ∧ lo = low3 n.val := by
  decide

theorem reg5_eq_iff : ∀ {hi2 hi : Bool} {lo : BitVec 3} {n : Fin 32},
    reg5 hi2 hi lo = n ↔ hi2 = n.val.testBit 4 ∧ hi = n.val.testBit 3 ∧ lo = low3 n.val := by
  decide

theorem Scale.ofField_eq_iff : ∀ {ss : BitVec 2} {scale : Scale}, Scale.ofField ss = scale ↔ ss = scale.field := by
  intro ss scale
  revert ss
  cases scale <;> decide

/-- R53, R81: an index field and X name the index register, or none by 0100. -/
theorem sibIndex_eq_iff {x : Bool} {idx : BitVec 3} {index : Option (Fin 16)} : sibIndex x idx = index ↔
    index ≠ some 4 ∧ x = (indexNo index).testBit 3 ∧ idx = low3 (indexNo index) := by
  revert x idx
  cases index with
  | none => decide
  | some j =>
    revert j
    decide

end Sys2Proof
end

section
/-! PROOFS. The bytes after the opcode (`spec/30_encoding.md` R78, R81 to R83): the decoder reads an operand from
exactly the bytes the encoder writes for it, with X and B free where the operand does not use them (R92). -/

namespace Sys2Proof

/-! ### Displacements (R82) -/

/-- A displacement is made of its bytes, highest first (R52). -/
theorem append_disp32Bytes (d : BitVec 32) :
    d.extractLsb' 24 8 ++ d.extractLsb' 16 8 ++ d.extractLsb' 8 8 ++ d.extractLsb' 0 8 = d := by
  apply BitVec.eq_of_getLsbD_eq
  intro j hj
  simp only [BitVec.getLsbD_append, BitVec.getLsbD_extractLsb']
  grind

/-- The bytes of a displacement put together from bytes are those bytes. -/
theorem disp32Bytes_append (b0 b1 b2 b3 : Byte) : disp32Bytes (b3 ++ b2 ++ b1 ++ b0) = [b0, b1, b2, b3] := by
  have h0 : (b3 ++ b2 ++ b1 ++ b0).extractLsb' 0 8 = b0 := BitVec.extractLsb'_append_eq_right
  have h1 : (b3 ++ b2 ++ b1 ++ b0).extractLsb' 8 8 = b1 :=
    (BitVec.extractLsb'_append_eq_of_le (by decide)).trans BitVec.extractLsb'_append_eq_right
  have h2 : (b3 ++ b2 ++ b1 ++ b0).extractLsb' 16 8 = b2 :=
    (BitVec.extractLsb'_append_eq_of_le (by decide)).trans <|
      (BitVec.extractLsb'_append_eq_of_le (by decide)).trans BitVec.extractLsb'_append_eq_right
  have h3 : (b3 ++ b2 ++ b1 ++ b0).extractLsb' 24 8 = b3 :=
    (BitVec.extractLsb'_append_eq_of_le (by decide)).trans <|
      (BitVec.extractLsb'_append_eq_of_le (by decide)).trans BitVec.extractLsb'_append_eq_left
  exact congr (congrArg _ h0) (congr (congrArg _ h1) (congr (congrArg _ h2) (congrArg (· :: []) h3)))

theorem takeDisp32_eq_some_iff {bs rest : List Byte} {d : BitVec 32} :
    takeDisp32 bs = some (d, rest) ↔ bs = disp32Bytes d ++ rest := by
  constructor
  · intro h
    unfold takeDisp32 at h
    split at h <;> cases h
    exact congrArg (· ++ rest) (disp32Bytes_append _ _ _ _).symm
  · rintro rfl
    exact congrArg (fun d => some (d, rest)) (append_disp32Bytes d)

theorem takeDisp_eq_some_iff {mode : BitVec 2} (hmode : mode ≠ 3) {bs rest : List Byte} {disp : Disp} :
    takeDisp mode bs = some (disp, rest) ↔ mode = disp.mode ∧ bs = disp.bytes ++ rest := by
  obtain rfl | rfl | rfl : mode = 0 ∨ mode = 1 ∨ mode = 2 := by
    revert mode
    decide
  · cases disp <;> simp [takeDisp, Disp.mode, Disp.bytes]
  · cases bs <;> cases disp <;> simp [takeDisp, Disp.mode, Disp.bytes]
  · cases disp <;> simp [takeDisp, Disp.mode, Disp.bytes, takeDisp32_eq_some_iff]

/-! ### Which of X and B an operand uses (R80, R81, R92) -/

/-- The operand uses X; `regX` says whether a register source does. -/
def Src2.usesX {nreg : Nat} (regX : Bool) : Src2 nreg → Bool
  | .reg _ => regX
  | .mem (.base _ _) => false
  | .mem (.ripRel _) => false
  | .mem (.sib _ _ _ _) => true
  | .mem (.sibNoBase _ _ _) => true

/-- The operand uses B. -/
def Src2.usesB {nreg : Nat} : Src2 nreg → Bool
  | .reg _ => true
  | .mem (.base _ _) => true
  | .mem (.ripRel _) => false
  | .mem (.sib _ _ _ _) => true
  | .mem (.sibNoBase _ _ _) => false

/-- X = `x` and B = `b` encode the operand: each is the operand's own bit, where it is used. -/
def Src2.Fits {nreg : Nat} (regX x b : Bool) (o : Src2 nreg) : Prop :=
  (o.usesX regX = true → x = o.xBit) ∧ (o.usesB = true → b = o.bBit)

/-! ### Memory operands (R81) -/

/-- R81: a low part 100 would announce a SIB byte. -/
theorem low3_eq_four_iff : ∀ {b : Fin 16}, low3 b.val = 4 ↔ b.val % 8 = 4 := by decide

/-- R81: a base with the low part 101 and no displacement would be read as no base. -/
theorem fitsBase_iff {b : Fin 16} {disp : Disp} :
    disp.fitsBase b = true ↔ ¬(disp.mode = 0 ∧ low3 b.val = 5) := by
  cases disp with
  | absent =>
    revert b
    decide
  | disp8 d => exact iff_of_true rfl fun h => absurd h.1 (by decide : (1 : BitVec 2) ≠ 0)
  | disp32 d => exact iff_of_true rfl fun h => absurd h.1 (by decide : (2 : BitVec 2) ≠ 0)

theorem eq_sibByte_iff {c : Byte} {scale : Scale} {index : Option (Fin 16)} {bField : BitVec 3} :
    c = sibByte scale index bField ↔
      Scale.ofField (c.extractLsb' 6 2) = scale ∧ c.extractLsb' 3 3 = low3 (indexNo index) ∧
        c.extractLsb' 0 3 = bField := by
  rw [Scale.ofField_eq_iff]
  exact eq_append_2_3_3_iff

/-- What the decoder reads as a memory operand is well formed and stands in the bytes as the encoder writes it. -/
theorem takeMem_sound {nreg : Nat} {x b : Bool} {mode : BitVec 2} {rm : BitVec 3} {bs rest : List Byte} {m : MemOp}
    (hmode : mode ≠ 3) (regX : Bool) (h : takeMem x b mode rm bs = some (m, rest)) :
    m.wellFormed = true ∧ (Src2.mem (nreg := nreg) m).Fits regX x b ∧ mode = (Src2.mem (nreg := nreg) m).mode ∧
      rm = (Src2.mem (nreg := nreg) m).rm ∧ bs = (Src2.mem (nreg := nreg) m).trail ++ rest := by
  unfold takeMem at h
  split_ifs at h with hsib hrip
  · cases bs with
    | nil => cases h
    | cons c bs =>
      obtain ⟨hindex, hx, hidx⟩ := sibIndex_eq_iff.1 (rfl : sibIndex x (c.extractLsb' 3 3) = _)
      dsimp only at h
      split_ifs at h with hbase
      · obtain ⟨⟨d, tl⟩, hd, h⟩ := Option.map_eq_some_iff.1 h
        cases h
        have hc := eq_sibByte_iff.2 ⟨rfl, hidx, hbase.1⟩
        exact ⟨by simpa [MemOp.wellFormed] using hindex, ⟨fun _ => hx, nofun⟩, hbase.2, hsib,
          congrArg₂ List.cons hc (takeDisp32_eq_some_iff.1 hd)⟩
      · obtain ⟨⟨disp, tl⟩, hd, h⟩ := Option.map_eq_some_iff.1 h
        cases h
        obtain ⟨hm, hbs⟩ := (takeDisp_eq_some_iff hmode).1 hd
        obtain ⟨hb, hlow⟩ := reg4_eq_iff.1 (rfl : reg4 b (c.extractLsb' 0 3) = _)
        have hc := eq_sibByte_iff.2 ⟨rfl, hidx, hlow⟩
        rw [hlow, and_comm, hm, ← fitsBase_iff] at hbase
        exact ⟨by simp [MemOp.wellFormed, hindex, hbase], ⟨fun _ => hx, fun _ => hb⟩, hm, hsib,
          congrArg₂ List.cons hc hbs⟩
  · obtain ⟨⟨d, tl⟩, hd, h⟩ := Option.map_eq_some_iff.1 h
    cases h
    exact ⟨rfl, ⟨nofun, nofun⟩, hrip.1, hrip.2, takeDisp32_eq_some_iff.1 hd⟩
  · obtain ⟨⟨disp, tl⟩, hd, h⟩ := Option.map_eq_some_iff.1 h
    cases h
    obtain ⟨hm, hbs⟩ := (takeDisp_eq_some_iff hmode).1 hd
    obtain ⟨hb, hlow⟩ := reg4_eq_iff.1 (rfl : reg4 b rm = _)
    rw [hlow, hm, ← fitsBase_iff] at hrip
    rw [hlow, low3_eq_four_iff] at hsib
    exact ⟨by simp [MemOp.wellFormed, hsib, hrip], ⟨nofun, fun _ => hb⟩, hm, hlow, hbs⟩

theorem Disp.mode_ne_three (disp : Disp) : disp.mode ≠ 3 := by cases disp <;> simp [Disp.mode]

/-- The mode 11 names a register (R78). -/
theorem mode_mem_ne_three {nreg : Nat} (m : MemOp) : (Src2.mem (nreg := nreg) m).mode ≠ 3 := by
  cases m with
  | base r disp => exact disp.mode_ne_three
  | ripRel d => exact (by decide : (0 : BitVec 2) ≠ 3)
  | sib scale index r disp => exact disp.mode_ne_three
  | sibNoBase scale index d => exact (by decide : (0 : BitVec 2) ≠ 3)

/-- The decoder reads a well-formed memory operand back from the bytes the encoder writes for it. -/
theorem takeMem_complete {nreg : Nat} {regX x b : Bool} {m : MemOp} (rest : List Byte) (hwf : m.wellFormed = true)
    (hfits : (Src2.mem (nreg := nreg) m).Fits regX x b) :
    takeMem x b (Src2.mem (nreg := nreg) m).mode (Src2.mem (nreg := nreg) m).rm
      ((Src2.mem (nreg := nreg) m).trail ++ rest) = some (m, rest) := by
  obtain ⟨hx, hb⟩ := hfits
  have hdisp (disp : Disp) : takeDisp disp.mode (disp.bytes ++ rest) = some (disp, rest) :=
    (takeDisp_eq_some_iff disp.mode_ne_three).2 ⟨rfl, rfl⟩
  have hdisp32 (d : BitVec 32) : takeDisp32 (disp32Bytes d ++ rest) = some (d, rest) := takeDisp32_eq_some_iff.2 rfl
  cases m with
  | base r disp =>
    simp only [MemOp.wellFormed, Bool.and_eq_true, bne_iff_ne, fitsBase_iff] at hwf
    obtain ⟨hlow, hbase⟩ := hwf
    simp only [Src2.mode, Src2.rm, Src2.trail, takeMem, if_neg (hlow ∘ low3_eq_four_iff.1), if_neg hbase, hdisp,
      Option.map_some, reg4_eq_iff.2 ⟨hb rfl, rfl⟩]
  | ripRel d =>
    simp only [Src2.mode, Src2.rm, Src2.trail, takeMem, if_neg (by decide : ¬(5 : BitVec 3) = 4), and_self, if_true,
      hdisp32, Option.map_some]
  | sib scale index r disp =>
    simp only [MemOp.wellFormed, Bool.and_eq_true, bne_iff_ne, fitsBase_iff, and_comm (a := disp.mode = 0)] at hwf
    obtain ⟨hindex, hbase⟩ := hwf
    obtain ⟨hscale, hidx, hbField⟩ := eq_sibByte_iff.1 (rfl : sibByte scale index (low3 r.val) = _)
    simp only [Src2.mode, Src2.rm, Src2.trail, takeMem, List.cons_append, if_true, hscale, hidx, hbField,
      if_neg hbase, hdisp, Option.map_some, reg4_eq_iff.2 ⟨hb rfl, rfl⟩, sibIndex_eq_iff.2 ⟨hindex, hx rfl, rfl⟩]
  | sibNoBase scale index d =>
    obtain ⟨hscale, hidx, hbField⟩ := eq_sibByte_iff.1 (rfl : sibByte scale index 5 = _)
    have hindex : index ≠ some 4 := by simpa [MemOp.wellFormed] using hwf
    simp only [Src2.mode, Src2.rm, Src2.trail, takeMem, List.cons_append, if_true, hscale, hidx, hbField, and_self,
      hdisp32, Option.map_some, sibIndex_eq_iff.2 ⟨hindex, hx rfl, rfl⟩]

/-! ### The second source and the immediate (R78, R83) -/

section
variable {nreg : Nat} {regNo : BitVec 3 → Fin nreg} {regX x b : Bool} (hreg : ∀ (rm : BitVec 3) (n : Fin nreg),
  regNo rm = n ↔ (Src2.reg n).Fits regX x b ∧ rm = low3 n.val)
include hreg

theorem takeSrc2_eq_some_iff {mode : BitVec 2} {rm : BitVec 3} {bs rest : List Byte} {o : Src2 nreg} :
    takeSrc2 regNo x b mode rm bs = some (o, rest) ↔
      o.wellFormed = true ∧ o.Fits regX x b ∧ mode = o.mode ∧ rm = o.rm ∧ bs = o.trail ++ rest := by
  unfold takeSrc2
  constructor
  · intro h
    split_ifs at h with hmode
    · cases h
      obtain ⟨hfits, hrm⟩ := (hreg rm _).1 rfl
      exact ⟨rfl, hfits, hmode, hrm, rfl⟩
    · obtain ⟨⟨m, tl⟩, hm, h⟩ := Option.map_eq_some_iff.1 h
      cases h
      exact takeMem_sound hmode regX hm
  · rintro ⟨hwf, hfits, rfl, rfl, rfl⟩
    cases o with
    | reg n => exact congrArg (fun r => some (Src2.reg r, rest)) ((hreg _ n).2 ⟨hfits, rfl⟩)
    | mem m =>
      rw [if_neg (mode_mem_ne_three m), takeMem_complete rest hwf hfits, Option.map_some]

/-- What follows the opcode byte is read as exactly what the encoder writes there. -/
theorem takeOperands_eq_some_iff {reg : BitVec 3} {o : Src2 nreg} {imm8 : Byte} {bs rest : List Byte} :
    takeOperands regNo x b bs = some (reg, o, imm8, rest) ↔
      o.wellFormed = true ∧ o.Fits regX x b ∧ bs = operandBytes reg o imm8 ++ rest := by
  constructor
  · intro h
    cases bs with
    | nil => cases h
    | cons c bs =>
      simp only [takeOperands] at h
      split at h <;> cases h
      rename_i hsrc
      obtain ⟨hwf, hfits, hmode, hrm, rfl⟩ := (takeSrc2_eq_some_iff hreg).1 hsrc
      have hc := eq_append_2_3_3_iff.2 ⟨hmode, rfl, hrm⟩
      refine ⟨hwf, hfits, ?_⟩
      simp only [operandBytes, List.cons_append, List.append_assoc, List.nil_append]
      exact congrArg (· :: _) hc
  · rintro ⟨hwf, hfits, rfl⟩
    obtain ⟨hmode, hr, hrm⟩ := eq_append_2_3_3_iff.1 (rfl : o.mode ++ reg ++ o.rm = _)
    have hsrc := (takeSrc2_eq_some_iff hreg).2 ⟨hwf, hfits, hmode, hrm, (rfl : o.trail ++ imm8 :: rest = _)⟩
    simp only [operandBytes, List.cons_append, List.append_assoc, List.nil_append, takeOperands, hsrc]
    rw [hr]

end
end Sys2Proof
end

section
/-! PROOFS. The bytes of an instruction behind its legacy bytes (`spec/30_encoding.md` R72 to R85): from the C4 or 62
byte on the decoder reads an instruction from exactly the bytes the encoder writes for it, X and B free where they are
ignored. -/

namespace Sys2Proof

/-! ### The bytes from C4 or 62 on -/

/-- The bytes after C4, with X and B at `x` and `b`. -/
def vexBytes (x b : Bool) (a : VexArgs) : List Byte :=
  vexB1 (a.d.val.testBit 3) x b :: vexB2 a.s1 :: 0x18 :: operandBytes (low3 a.d.val) a.src2 a.imm8

/-- The bytes after 62, with X and B at `x` and `b`. -/
def evexBytes (op : Byte) (w : Bool) (ll : BitVec 2) (x b : Bool) (a : EvexArgs) : List Byte :=
  evexP0 (a.d.val.testBit 3) x b (a.d.val.testBit 4) :: evexP1 w (BitVec.ofNat 4 a.s1.val) ::
    evexP2 a.z ll (a.s1.val.testBit 4) a.kn :: op :: operandBytes (low3 a.d.val) a.src2 a.imm8

/-- The bytes of `i` behind its legacy bytes, with X and B at `x` and `b`. -/
def Instr.bodyBytes (x b : Bool) : Instr → List Byte
  | .vinsertf128 a => 0xC4 :: vexBytes x b a
  | .vinsertf32x4Ymm a => 0x62 :: evexBytes 0x18 false 1 x b a
  | .vinsertf32x4Zmm a => 0x62 :: evexBytes 0x18 false 2 x b a
  | .vinsertf64x2Ymm a => 0x62 :: evexBytes 0x18 true 1 x b a
  | .vinsertf64x2Zmm a => 0x62 :: evexBytes 0x18 true 2 x b a
  | .vinsertf32x8 a => 0x62 :: evexBytes 0x1A false 2 x b a
  | .vinsertf64x4 a => 0x62 :: evexBytes 0x1A true 2 x b a

/-- X = `x` and B = `b` encode the second source of `i` (R79, R80, R92). -/
def Instr.Fits (x b : Bool) (i : Instr) : Prop := i.args.src2.Fits i.row.evex x b

/-- A VEX operand and the same operand among 32 registers have the same bits. -/
theorem toEvex_fits_iff {x b : Bool} {a : VexArgs} :
    (Instr.vinsertf128 a).Fits x b ↔ a.src2.Fits false x b := by
  obtain ⟨pre, d, s1, src2, imm8⟩ := a
  rcases src2 with n | (_ | _ | _ | _) <;> rfl

/-! ### The VEX form -/

theorem reg4_eq_iff_fits {x b : Bool} (rm : BitVec 3) (n : Fin 16) :
    reg4 b rm = n ↔ (Src2.reg n).Fits false x b ∧ rm = low3 n.val := by
  rw [reg4_eq_iff]
  exact and_congr_left' ⟨fun h => ⟨nofun, fun _ => h⟩, fun h => h.2 rfl⟩

theorem decodeVex_sound {p : Prefixes} {bs rest : List Byte} {i : Instr} (h : decodeVex p bs = .instr i rest) :
    i.wellFormed = true ∧ i.args.pre = p ∧ ∃ x b, i.Fits x b ∧ 0xC4 :: bs = i.bodyBytes x b ++ rest := by
  unfold decodeVex at h
  split at h
  case h_2 => cases h
  case h_1 b1 b2 op bs =>
    dsimp only at h
    split_ifs at h with hfamily hl hw
    simp only [ne_eq, not_or, not_not] at hfamily
    obtain ⟨hmap, hpp, rfl⟩ := hfamily
    split at h <;> cases h
    rename_i reg src2 imm8 hops
    obtain ⟨hwf, hfits, rfl⟩ := (takeOperands_eq_some_iff reg4_eq_iff_fits).1 hops
    obtain ⟨hr, hreg⟩ := reg4_eq_iff.1 (rfl : reg4 (!b1.getLsbD 7) reg = _)
    have hb1 := eq_vexB1_iff.2 ⟨hmap, hr, rfl, rfl⟩
    have hb2 := eq_vexB2_iff.2 ⟨hpp, eq_true_of_ne_false hl, eq_false_of_ne_true hw, rfl⟩
    refine ⟨hwf, rfl, _, _, toEvex_fits_iff.2 hfits, ?_⟩
    exact congrArg (_ :: ·) (congrArg₂ List.cons hb1 (congrArg₂ List.cons hb2 (by rw [← hreg]; rfl)))

theorem decodeVex_complete {a : VexArgs} {x b : Bool} (rest : List Byte) (hwf : a.src2.wellFormed = true)
    (hfits : a.src2.Fits false x b) : decodeVex a.pre (vexBytes x b a ++ rest) = .instr (.vinsertf128 a) rest := by
  obtain ⟨hmap, hr, hx, hb⟩ := eq_vexB1_iff.1 (rfl : vexB1 (a.d.val.testBit 3) x b = _)
  obtain ⟨hpp, hl, hw, hs1⟩ := eq_vexB2_iff.1 (rfl : vexB2 a.s1 = _)
  have hops := (takeOperands_eq_some_iff reg4_eq_iff_fits).2
    ⟨hwf, hfits, (rfl : operandBytes (low3 a.d.val) a.src2 a.imm8 ++ rest = _)⟩
  simp only [vexBytes, List.cons_append, decodeVex, hmap, hr, hx, hb, hpp, hl, hw, hs1, hops, reg4_eq_iff.2 ⟨rfl, rfl⟩,
    ne_eq, not_true, or_self, if_false, Bool.true_eq_false, Bool.false_eq_true]

/-! ### The EVEX forms -/

theorem reg5_eq_iff_fits {x b : Bool} (rm : BitVec 3) (n : Fin 32) :
    reg5 x b rm = n ↔ (Src2.reg n).Fits true x b ∧ rm = low3 n.val := by
  rw [reg5_eq_iff, ← and_assoc]
  exact and_congr_left' ⟨fun h => ⟨fun _ => h.1, fun _ => h.2⟩, fun h => ⟨h.1 rfl, h.2 rfl⟩⟩

/-- R77: a row of the EVEX forms has the fields that select it. -/
theorem evexRow_eq_some {op : Byte} {w : Bool} {ll : BitVec 2} {row : EvexArgs → Instr} (hop : op = 0x18 ∨ op = 0x1A)
    (h : evexRow op w ll = some row) (a : EvexArgs) : (row a).args = a ∧ (row a).row.evex = true ∧
      (row a).wellFormed = a.wellFormed ∧ ∀ x b, (row a).bodyBytes x b = 0x62 :: evexBytes op w ll x b a := by
  obtain rfl | rfl := hop <;> cases w
  all_goals
    simp only [evexRow, if_true, if_false, Bool.false_eq_true, if_neg (by decide : ¬(0x1A : Byte) = 0x18)] at h
    split_ifs at h <;> subst ll <;> cases h <;> exact ⟨rfl, rfl, rfl, fun _ _ => rfl⟩

theorem decodeEvex_sound {p : Prefixes} {bs rest : List Byte} {i : Instr} (h : decodeEvex p bs = .instr i rest) :
    i.wellFormed = true ∧ i.args.pre = p ∧ ∃ x b, i.Fits x b ∧ 0x62 :: bs = i.bodyBytes x b ++ rest := by
  unfold decodeEvex at h
  split at h
  case h_2 => cases h
  case h_1 p0 p1 p2 op bs =>
    dsimp only at h
    split_ifs at h with hreserved hfamily hb hmask
    · split at h <;> cases h
    · split at h <;> cases h
    split at h
    case h_1 => cases h
    case h_2 row hrow =>
      split at h <;> cases h
      rename_i reg src2 imm8 hops
      simp only [ne_eq, not_or, not_not, Bool.not_eq_false, not_and_or] at hreserved hfamily
      obtain ⟨h00, h1⟩ := hreserved
      obtain ⟨hmm, hpp, hop⟩ := hfamily
      obtain ⟨hargs, hevex, hwf, hbody⟩ := evexRow_eq_some hop hrow _
      obtain ⟨hsrc, hfits, rfl⟩ := (takeOperands_eq_some_iff reg5_eq_iff_fits).1 hops
      obtain ⟨hr', hr, hreg⟩ := reg5_eq_iff.1 (rfl : reg5 (!p0.getLsbD 4) (!p0.getLsbD 7) reg = _)
      obtain ⟨hv', hv⟩ := vvvv_eq_iff.1 (rfl : (BitVec.ofBool (!p2.getLsbD 3) ++ ~~~ p1.extractLsb' 3 4).toFin = _)
      have hp0 := eq_evexP0_iff.2 ⟨h00, hmm, hr, rfl, rfl, hr'⟩
      have hp1 := eq_evexP1_iff.2 ⟨h1, hpp, rfl, hv⟩
      have hp2 := eq_evexP2_iff.2 ⟨eq_false_of_ne_true hb, rfl, rfl, rfl, hv'⟩
      refine ⟨?_, congrArg _ hargs, !p0.getLsbD 6, !p0.getLsbD 5, ?_, ?_⟩
      · rw [hwf, EvexArgs.wellFormed, hsrc, eq_true_of_ne_false hmask]
        rfl
      · rw [Instr.Fits, hargs, hevex]
        exact hfits
      · rw [hbody]
        exact congrArg (_ :: ·) (congrArg₂ List.cons hp0 (congrArg₂ List.cons hp1 (congrArg₂ List.cons hp2
          (by rw [← hreg]; rfl))))

theorem decodeEvex_complete {op : Byte} {w : Bool} {ll : BitVec 2} {row : EvexArgs → Instr}
    (hop : op = 0x18 ∨ op = 0x1A) (hrow : evexRow op w ll = some row) {a : EvexArgs} {x b : Bool} (rest : List Byte)
    (hwf : a.wellFormed = true) (hfits : a.src2.Fits true x b) :
    decodeEvex a.pre (evexBytes op w ll x b a ++ rest) = .instr (row a) rest := by
  obtain ⟨h00, hmm, hr, hx, hb, hr'⟩ := eq_evexP0_iff.1 (rfl : evexP0 (a.d.val.testBit 3) x b (a.d.val.testBit 4) = _)
  obtain ⟨h1, hpp, hw, hv⟩ := eq_evexP1_iff.1 (rfl : evexP1 w (BitVec.ofNat 4 a.s1.val) = _)
  obtain ⟨hb0, hz, hll, hkn, hv'⟩ := eq_evexP2_iff.1 (rfl : evexP2 a.z ll (a.s1.val.testBit 4) a.kn = _)
  obtain ⟨hsrc, hmask⟩ : a.src2.wellFormed = true ∧ maskWellFormed a.kn a.z = true := by
    simpa [EvexArgs.wellFormed] using hwf
  have hops := (takeOperands_eq_some_iff reg5_eq_iff_fits).2
    ⟨hsrc, hfits, (rfl : operandBytes (low3 a.d.val) a.src2 a.imm8 ++ rest = _)⟩
  have hfamily : ¬(op ≠ 0x18 ∧ op ≠ 0x1A) := by tauto
  simp only [evexBytes, List.cons_append, decodeEvex, h00, hmm, hr, hx, hb, hr', h1, hpp, hw, hv, hb0, hz, hll, hkn,
    hv', hops, hrow, hmask, hfamily, reg5_eq_iff.2 ⟨rfl, rfl, rfl⟩, vvvv_eq_iff.2 ⟨rfl, rfl⟩,
    ne_eq, not_true, or_self, if_false, Bool.true_eq_false, Bool.false_eq_true]

end Sys2Proof
end

section
/-! PROOFS. Decoding and encoding (`spec/30_encoding.md` R71, R90 to R96): the instruction the decoder reads stands in
the bytes as one of its encodings, its legacy bytes in either order and its ignored bits either way, and every one of
its encodings is read as it. -/

namespace Sys2Proof

/-! ### Behind the legacy bytes -/

/-- Behind its legacy bytes a well-formed instruction is read from its bytes, its ignored bits either way. -/
theorem decodeFrom_bodyBytes {i : Instr} {x b : Bool} (rest : List Byte) (hwf : i.wellFormed = true)
    (hfits : i.Fits x b) : decodeFrom i.args.pre false (i.bodyBytes x b ++ rest) = .instr i rest := by
  have hevex {op : Byte} {w : Bool} {ll : BitVec 2} {row : EvexArgs → Instr} {a : EvexArgs}
      (hop : op = 0x18 ∨ op = 0x1A) (hrow : evexRow op w ll = some row) (hwf : a.wellFormed = true)
      (hfits : a.src2.Fits true x b) :
      decodeFrom a.pre false (0x62 :: evexBytes op w ll x b a ++ rest) = .instr (row a) rest :=
    decodeEvex_complete hop hrow rest hwf hfits
  cases i with
  | vinsertf128 a => exact decodeVex_complete rest hwf (toEvex_fits_iff.1 hfits)
  | vinsertf32x4Ymm a => exact hevex (.inl rfl) rfl hwf hfits
  | vinsertf32x4Zmm a => exact hevex (.inl rfl) rfl hwf hfits
  | vinsertf64x2Ymm a => exact hevex (.inl rfl) rfl hwf hfits
  | vinsertf64x2Zmm a => exact hevex (.inl rfl) rfl hwf hfits
  | vinsertf32x8 a => exact hevex (.inr rfl) rfl hwf hfits
  | vinsertf64x4 a => exact hevex (.inr rfl) rfl hwf hfits

/-! ### The legacy bytes (R71, R96 step 1) -/

theorem eq_byte_of_segOverrideOf {b : Byte} {g : SegOverride} (h : segOverrideOf b = some g) : b = g.byte := by
  unfold segOverrideOf at h
  split_ifs at h with hb hb hb hb hb hb <;> cases h <;> exact hb

/-- Behind a forbidden byte C4 and 62 raise #UD and further legacy bytes change nothing (log entry 11). -/
theorem decodeFrom_bad_cons (p : Prefixes) (c : Byte) (bs : List Byte) : decodeFrom p true (c :: bs) =
    if c = 0xC4 ∨ c = 0x62 then .invalidOpcode
    else if forbiddenByte c = true ∨ c = 0x67 ∨ (segOverrideOf c).isSome = true then decodeFrom p true bs
    else .refused .notThisFamily := by
  simp only [decodeFrom, if_true]
  cases segOverrideOf c <;> grind

/-- Behind a forbidden byte nothing is an instruction. -/
theorem decodeFrom_bad_ne_instr (p : Prefixes) (bs rest : List Byte) (i : Instr) :
    decodeFrom p true bs ≠ .instr i rest := by
  induction bs with
  | nil => exact nofun
  | cons c bs ih =>
    rw [decodeFrom_bad_cons]
    split_ifs
    · exact nofun
    · exact ih
    · exact nofun

/-- What the decoder reads as an instruction begins with C4, with 62, or with a legacy byte that is not yet there. -/
theorem decodeFrom_eq_instr {p : Prefixes} {bs rest : List Byte} {i : Instr}
    (h : decodeFrom p false bs = .instr i rest) :
    (i.wellFormed = true ∧ i.args.pre = p ∧ ∃ x b, i.Fits x b ∧ bs = i.bodyBytes x b ++ rest) ∨
    (p.asz32 = false ∧ ∃ tl, bs = 0x67 :: tl ∧ decodeFrom { p with asz32 := true } false tl = .instr i rest) ∨
    (p.seg = none ∧ ∃ (g : SegOverride) (tl : List Byte), bs = g.byte :: tl ∧
      decodeFrom { p with seg := some g } false tl = .instr i rest) := by
  cases bs with
  | nil => cases h
  | cons c bs =>
    simp only [decodeFrom, Bool.false_eq_true, if_false] at h
    split_ifs at h with hvex hevex hforbidden hasz hdouble hseg
    · exact .inl (hvex ▸ decodeVex_sound h)
    · exact .inl (hevex ▸ decodeEvex_sound h)
    · exact absurd h (decodeFrom_bad_ne_instr p bs rest i)
    · exact .inr (.inl ⟨eq_false_of_ne_true hdouble, bs, by rw [hasz], h⟩)
    · split at h <;> cases h
    · split at h
      case h_1 g hg =>
        exact .inr (.inr ⟨by simpa using hseg, g, bs, by rw [eq_byte_of_segOverrideOf hg], h⟩)
      case h_2 => cases h

theorem decode_sound {bs rest : List Byte} {i : Instr} (h : decode bs = .instr i rest) :
    i.wellFormed = true ∧ ∃ reversed x b, i.Fits x b ∧
      bs = i.args.pre.bytesIn reversed ++ (i.bodyBytes x b ++ rest) := by
  obtain ⟨hwf, hpre, x, b, hfits, hbs⟩ | ⟨_, tl, rfl, hasz⟩ | ⟨_, g, tl, rfl, hseg⟩ := decodeFrom_eq_instr h
  · exact ⟨hwf, false, x, b, hfits, by rw [hpre, hbs]; rfl⟩
  · obtain ⟨hwf, hpre, x, b, hfits, htl⟩ | ⟨habsurd, _⟩ | ⟨_, g, tl, rfl, hboth⟩ := decodeFrom_eq_instr hasz
    · exact ⟨hwf, false, x, b, hfits, by rw [hpre, htl]; rfl⟩
    · cases habsurd
    · obtain ⟨hwf, hpre, x, b, hfits, htl⟩ | ⟨habsurd, _⟩ | ⟨habsurd, _⟩ := decodeFrom_eq_instr hboth
      · exact ⟨hwf, true, x, b, hfits, by rw [hpre, htl]; rfl⟩
      · cases habsurd
      · cases habsurd
  · obtain ⟨hwf, hpre, x, b, hfits, htl⟩ | ⟨_, tl, rfl, hboth⟩ | ⟨habsurd, _⟩ := decodeFrom_eq_instr hseg
    · exact ⟨hwf, false, x, b, hfits, by rw [hpre, htl]; rfl⟩
    · obtain ⟨hwf, hpre, x, b, hfits, htl⟩ | ⟨habsurd, _⟩ | ⟨habsurd, _⟩ := decodeFrom_eq_instr hboth
      · exact ⟨hwf, false, x, b, hfits, by rw [hpre, htl]; rfl⟩
      · cases habsurd
      · cases habsurd
    · cases habsurd

/-- The decoder reads `i` from exactly its legacy bytes, in either order, and its own bytes, with X and B as they fit
its second source. -/
theorem decode_eq_instr_iff {bs rest : List Byte} {i : Instr} : decode bs = .instr i rest ↔
    i.wellFormed = true ∧ ∃ reversed x b, i.Fits x b ∧
      bs = i.args.pre.bytesIn reversed ++ (i.bodyBytes x b ++ rest) := by
  refine ⟨decode_sound, ?_⟩
  rintro ⟨hwf, reversed, x, b, hfits, rfl⟩
  rw [decode_bytesIn_append, decodeFrom_bodyBytes rest hwf hfits]

/-! ### The ignored bits (R92) -/

/-- The mask of X in bit 6 and B in bit 5. -/
def xbMask (x b : Bool) : Byte := 0#1 ++ BitVec.ofBool x ++ BitVec.ofBool b ++ 0#5

theorem ignoredBits_eq (i : Instr) :
    i.ignoredBits = xbMask (!i.args.src2.usesX i.row.evex) (!i.args.src2.usesB) := by
  have hmask : xbMask false false = 0 ∧ xbMask true false = 0x40 ∧ xbMask false true = 0x20 ∧
      xbMask true true = 0x60 := by decide
  obtain ⟨hnone, hx, hb, hboth⟩ := hmask
  unfold Instr.ignoredBits
  split <;> rename_i h <;> rw [h]
  · cases i.row.evex
    · exact hx.symm
    · exact hnone.symm
  · exact hx.symm
  · exact hboth.symm
  · exact hnone.symm
  · exact hb.symm

theorem vexB1_xor_mask : ∀ (r x b u v : Bool), vexB1 r x b ^^^ xbMask u v = vexB1 r (x ^^ u) (b ^^ v) := by
  decide

theorem evexP0_xor_mask : ∀ (r x b r' u v : Bool),
    evexP0 r x b r' ^^^ xbMask u v = evexP0 r (x ^^ u) (b ^^ v) r' := by
  decide

theorem and_xbMask : ∀ (turn : Byte) (x b : Bool),
    turn &&& xbMask x b = xbMask (turn.getLsbD 6 && x) (turn.getLsbD 5 && b) := by
  decide

theorem xbMask_bits : ∀ (x b : Bool), (xbMask x b).getLsbD 6 = x ∧ (xbMask x b).getLsbD 5 = b := by
  decide

/-- A VEX operand and the same operand among 32 registers have the same X and B. -/
theorem toEvex_bits (a : VexArgs) :
    a.toEvex.src2.xBit = a.src2.xBit ∧ a.toEvex.src2.bBit = a.src2.bBit := by
  obtain ⟨pre, d, s1, src2, imm8⟩ := a
  rcases src2 with n | (_ | _ | _ | _) <;> exact ⟨rfl, rfl⟩

/-- Behind its legacy bytes the encoder writes the body with the operand's own X and B. -/
theorem drop_encode (i : Instr) :
    (encode i).drop i.args.pre.len = i.bodyBytes i.args.src2.xBit i.args.src2.bBit := by
  cases i with
  | vinsertf128 a =>
    obtain ⟨hx, hb⟩ := toEvex_bits a
    rw [Instr.args, hx, hb]
    exact List.drop_left' a.pre.bytes_length
  | _ a => exact List.drop_left' a.pre.bytes_length

/-- Every encoding of `i` is its legacy bytes and its body with X and B turned where it ignores them. -/
theorem encodingWith_eq (reversed : Bool) (turn : Byte) (i : Instr) : i.encodingWith reversed turn =
    i.args.pre.bytesIn reversed ++ i.bodyBytes
      (i.args.src2.xBit ^^ (turn.getLsbD 6 && !i.args.src2.usesX i.row.evex))
      (i.args.src2.bBit ^^ (turn.getLsbD 5 && !i.args.src2.usesB)) := by
  rw [Instr.encodingWith, drop_encode, ignoredBits_eq, and_xbMask]
  cases i with
  | vinsertf128 a => simp only [Instr.bodyBytes, vexBytes, vexB1_xor_mask]
  | _ a => simp only [Instr.bodyBytes, evexBytes, evexP0_xor_mask]

/-- A bit that may be turned only where it is ignored fits, and every fitting bit is the operand's own turned so. -/
theorem turned_iff {used own bit : Bool} : (used = true → bit = own) ↔ ∃ t, bit = (own ^^ (t && !used)) := by
  revert used own bit
  decide

/-- The encodings of `i` are its legacy bytes in either order and its bytes with every fitting X and B. -/
theorem exists_encodingWith_iff {i : Instr} {bs : List Byte} :
    (∃ reversed turn, bs = i.encodingWith reversed turn) ↔
      ∃ reversed x b, i.Fits x b ∧ bs = i.args.pre.bytesIn reversed ++ i.bodyBytes x b := by
  simp only [encodingWith_eq]
  constructor
  · rintro ⟨reversed, turn, rfl⟩
    exact ⟨reversed, _, _, ⟨turned_iff.2 ⟨_, rfl⟩, turned_iff.2 ⟨_, rfl⟩⟩, rfl⟩
  · rintro ⟨reversed, x, b, ⟨hx, hb⟩, rfl⟩
    obtain ⟨u, rfl⟩ := turned_iff.1 hx
    obtain ⟨v, rfl⟩ := turned_iff.1 hb
    obtain ⟨hu, hv⟩ := xbMask_bits u v
    exact ⟨reversed, xbMask u v, by rw [hu, hv]⟩

/-- Settles O2: both sides are the legacy bytes in either order and the bytes of `i` with every fitting X and B. -/
theorem decodesExactlyItsEncodings : Obligations.DecodesExactlyItsEncodings := by
  intro bs rest i
  rw [decode_eq_instr_iff]
  refine and_congr_right fun _ => ?_
  constructor
  · rintro ⟨reversed, x, b, hfits, rfl⟩
    obtain ⟨reversed', turn, h⟩ := exists_encodingWith_iff.2 ⟨reversed, x, b, hfits, rfl⟩
    exact ⟨reversed', turn, by rw [← h, List.append_assoc]⟩
  · rintro ⟨reversed, turn, rfl⟩
    obtain ⟨reversed', x, b, hfits, h⟩ := exists_encodingWith_iff.1 ⟨reversed, turn, rfl⟩
    exact ⟨reversed', x, b, hfits, by rw [h, List.append_assoc]⟩

/-- The encoder's own bytes are the encoding with the segment override first and no bit turned. -/
theorem encodingWith_encode (i : Instr) : i.encodingWith false 0 = encode i := by
  have hpre : (encode i).take i.args.pre.len = i.args.pre.bytes := by
    cases i <;> exact List.take_left' (Prefixes.bytes_length _)
  rw [encodingWith_eq]
  simp only [BitVec.ofNat_eq_ofNat, BitVec.getLsbD_zero, Bool.false_and, Bool.xor_false, ← drop_encode]
  exact (congrArg (· ++ _) hpre.symm).trans (List.take_append_drop _ _)

/-- Settles O1: the encoder's bytes are one of the encodings that decode. -/
theorem decodeEncodeAgree : Obligations.DecodeEncodeAgree := by
  intro i rest hwf
  exact (decodesExactlyItsEncodings _ rest i).2 ⟨hwf, false, 0, by rw [encodingWith_encode]⟩

/-! ### Length and row (R89, R90) -/

theorem encode_length (i : Instr) : (encode i).length = i.len ∧ 6 ≤ i.len ∧ i.len ≤ 14 := by
  cases i with
  | vinsertf128 a => exact Laws.EncodedLength.vinsertf128 a
  | vinsertf32x4Ymm a => exact Laws.EncodedLength.vinsertf32x4Ymm a
  | vinsertf32x4Zmm a => exact Laws.EncodedLength.vinsertf32x4Zmm a
  | vinsertf64x2Ymm a => exact Laws.EncodedLength.vinsertf64x2Ymm a
  | vinsertf64x2Zmm a => exact Laws.EncodedLength.vinsertf64x2Zmm a
  | vinsertf32x8 a => exact Laws.EncodedLength.vinsertf32x8 a
  | vinsertf64x4 a => exact Laws.EncodedLength.vinsertf64x4 a

theorem bodyBytes_length (x b x' b' : Bool) (i : Instr) :
    (i.bodyBytes x b).length = (i.bodyBytes x' b').length := by
  cases i <;> rfl

theorem bytesIn_length (reversed : Bool) (p : Prefixes) : (p.bytesIn reversed).length = p.len := by
  cases reversed <;> simp [Prefixes.bytesIn, Prefixes.bytes_length]

/-- Every encoding of an instruction has its length. -/
theorem encodingWith_length (reversed : Bool) (turn : Byte) (i : Instr) :
    (i.encodingWith reversed turn).length = i.len := by
  rw [← (encode_length i).1, ← encodingWith_encode, encodingWith_eq, encodingWith_eq, List.length_append,
    List.length_append, bytesIn_length, bytesIn_length, bodyBytes_length]

/-- Settles O4: the bytes used are an encoding of the instruction. -/
theorem decodedInstructionUsesLenBytes : Obligations.DecodedInstructionUsesLenBytes := by
  intro bs rest i h
  obtain ⟨hwf, reversed, turn, rfl⟩ := (decodesExactlyItsEncodings bs rest i).1 h
  obtain ⟨_, _, hlen⟩ := encode_length i
  exact ⟨hwf, hlen.trans (by decide), _, rfl, encodingWith_length reversed turn i⟩

theorem vexB1_masked : ∀ r x b : Bool, vexB1 r x b &&& 0x1F = 3 := by decide

theorem vexB2_masked : ∀ s1 : Fin 16, vexB2 s1 &&& 0x87 = 5 := by decide

/-- R90: the bytes behind the legacy bytes select the row, whatever X, B and the bytes after them. -/
theorem bodyBytes_masked (x b : Bool) (i : Instr) (rest : List Byte) :
    List.zipWith (· &&& ·) (i.bodyBytes x b ++ rest) i.rowMask = i.rowMatch := by
  have hevex (op : Byte) (w : Bool) (ll : BitVec 2) (a : EvexArgs) :
      List.zipWith (· &&& ·) (0x62 :: evexBytes op w ll x b a ++ rest) [0xFF, 0x0F, 0x87, 0x70, 0xFF] =
        [0x62, 3, BitVec.ofBool w ++ 5#7, 0#1 ++ ll ++ 0#5, op] := by
    have hop : op &&& 0xFF = op := BitVec.and_allOnes
    simp only [evexBytes, evexP0, evexP1, evexP2, List.cons_append, List.zipWith_cons_cons, List.zipWith_nil_right,
      evexP0_masked, evexP1_masked, evexP2_masked, hop]
    rfl
  cases i with
  | vinsertf128 a =>
    simp only [Instr.bodyBytes, vexBytes, Instr.rowMask, Instr.row, List.cons_append, Bool.false_eq_true, if_false,
      List.zipWith_cons_cons, List.zipWith_nil_right, vexB1_masked, vexB2_masked]
    rfl
  | _ a => exact hevex _ _ _ a

/-- Settles O5: behind the legacy bytes stands the body of the instruction. -/
theorem decodedInstructionSelectsItsRow : Obligations.DecodedInstructionSelectsItsRow := by
  intro bs rest i h
  obtain ⟨_, reversed, x, b, _, rfl⟩ := decode_sound h
  rw [Instr.selectedBy, List.drop_left' (bytesIn_length reversed i.args.pre), bodyBytes_masked, beq_self_eq_true]

end Sys2Proof
end

section
/-! PROOFS. When a form completes, faults or is refused (`spec/60_exceptions.md` R160 to R170, `spec/20_memory.md` R50
to R58): what the checks and the second source answer, condition by condition, and that nothing else decides. -/

namespace Sys2Proof.Machine

/-! ### The checks (R161, R162) -/

/-- The checks of every form are those of R161 and R162 behind the one on zeroing without a mask. -/
theorem checkOf_eq (i : Instr) (s : State) : checkOf i s =
    if maskWellFormed i.args.kn i.args.z then checkForm i.row.evex i.row.needs s else raise .invalidOpcode s := by
  cases i <;> rfl

/-- The conditions of R161 on the state and a form, as `checkOf` tests them. -/
theorem recognises_iff {i : Instr} {s : State} : s.Recognises i ↔ maskWellFormed i.args.kn i.args.z = true ∧
    (s.mode.recognisesVex && i.row.needs.all s.cfg.has && s.osxsave && s.avxEnabled &&
      (!i.row.evex || s.avx512Enabled)) = true := by
  simp only [maskWellFormed_iff, Bool.and_eq_true, recognisesVex_iff, List.all_eq_true, avxEnabled_iff, Bool.or_eq_true,
    Bool.not_eq_true', avx512Enabled_iff]
  constructor
  · rintro ⟨hmode, hcpuid, hosxsave, havx, havx512, hmask⟩
    refine ⟨hmask, ⟨⟨⟨hmode, hcpuid⟩, hosxsave⟩, havx⟩, ?_⟩
    cases hevex : i.row.evex
    · exact .inl rfl
    · exact .inr (havx512 hevex)
  · rintro ⟨hmask, ⟨⟨⟨hmode, hcpuid⟩, hosxsave⟩, havx⟩, hevex⟩
    exact ⟨hmode, hcpuid, hosxsave, havx, fun h => hevex.resolve_left (by simp [h]), hmask⟩

/-- The checks answer one of three things, each under its own condition. -/
theorem checkOf_cases (i : Instr) (s : State) :
    (s.Enables i ∧ checkOf i s = .next ()) ∨
    (s.Recognises i ∧ s.cr0.getLsbD 3 = true ∧ checkOf i s = .fault (.deviceNotAvailable s.rip)) ∨
    (¬s.Recognises i ∧ checkOf i s = .fault (.invalidOpcode s.rip)) := by
  rw [checkOf_eq, checkForm]
  by_cases h : s.Recognises i
  · obtain ⟨hmask, hgate⟩ := recognises_iff.1 h
    rw [if_pos hmask, if_pos hgate]
    by_cases hts : s.ts = true
    · exact .inr (.inl ⟨h, hts, if_pos hts⟩)
    · exact .inl ⟨⟨h, eq_false_of_ne_true hts⟩, if_neg hts⟩
  · refine .inr (.inr ⟨h, ?_⟩)
    rw [recognises_iff, not_and] at h
    split_ifs with hmask hgate hts
    · exact absurd hgate (h hmask)
    · exact absurd hgate (h hmask)
    · rfl
    · rfl

theorem enables_of_checkOf {i : Instr} {s : State} (h : checkOf i s = .next ()) : s.Enables i := by
  obtain ⟨henables, _⟩ | ⟨_, _, h'⟩ | ⟨_, h'⟩ := checkOf_cases i s
  · exact henables
  · cases h.symm.trans h'
  · cases h.symm.trans h'

/-! ### The second source (R51 to R58) -/

theorem src2_of_mem? {i : Instr} {m : MemOp} (hm : i.mem? = some m) : i.args.src2 = .mem m := by
  unfold Instr.mem? at hm
  split at hm <;> cases hm
  assumption

theorem src2_of_mem?_none {i : Instr} (hm : i.mem? = none) : ∃ n, i.args.src2 = .reg n := by
  unfold Instr.mem? at hm
  split at hm
  · exact ⟨_, ‹_›⟩
  · cases hm

/-- The second source of a register form is the register. -/
theorem sourceOf_reg {i : Instr} {n : Fin 32} (hn : i.args.src2 = .reg n) (s : State) :
    sourceOf i s = .next (s.view i.row.w n) := by
  rw [sourceOf, hn]
  rfl

/-- The second source of a memory form is one read at the operand's linear address. -/
theorem sourceOf_mem {i : Instr} {s : State} {m : MemOp} (hm : i.mem? = some m) (hmode : s.mode = .bits64) :
    sourceOf i s = memRead i.row.w (inStackSegment i.args.pre m) (i.linear m s) s := by
  rw [sourceOf, src2_of_mem? hm, readSrc2_mem _ _ _ _ _ _ _ hmode]
  rfl

theorem sourceOf_mem_outside64 {i : Instr} {s : State} {m : MemOp} (hm : i.mem? = some m) (hmode : s.mode ≠ .bits64) :
    sourceOf i s = .refused .addressingOutside64BitMode := by
  rw [sourceOf, src2_of_mem? hm, readSrc2_mem_outside64 _ _ _ _ _ _ _ hmode]

theorem canonicalRange_iff {s : State} {a n : Nat} :
    s.canonicalRange a n = true ↔ ∀ j < n, s.cfg.law.canonical (BitVec.ofNat 64 (a + j)) = true := by
  simp [State.canonicalRange]

theorem readable_iff {s : State} {a n : Nat} : s.readable a n = true ↔ ∀ j < n, s.byteReadable (a + j) = true := by
  simp [State.readable]

/-- A read is answered only in the way of an admitted one. -/
theorem admits_of_memRead {w : Nat} {stack : Bool} {addr : Word64} {s : State} {b : BitVec w} (hmode : s.mode = .bits64)
    (h : memRead w stack addr s = .next b) : s.Admits addr (w / 8) := by
  obtain ⟨_, hfits, hcanonical, hreadable, hac⟩ | ⟨h', _⟩ | ⟨h', _⟩ | ⟨h', _⟩ | ⟨h', _⟩ := memRead_cases w stack addr s
  · exact ⟨hmode, hfits, canonicalRange_iff.1 hcanonical, readable_iff.1 hreadable, by simp [← acEnabled_iff, hac]⟩
  all_goals cases h.symm.trans h'

/-! ### What the parts of a meaning make of the whole -/

theorem exec_of_checkOf_fault {i : Instr} {s : State} {f : Fault} (h : checkOf i s = .fault f) :
    exec i s = .fault f := by
  rw [exec_shape, h, andThen_fault]

theorem exec_of_sourceOf_fault {i : Instr} {s : State} {f : Fault} (henables : s.Enables i)
    (h : sourceOf i s = .fault f) : exec i s = .fault f := by
  rw [exec_shape, checkOf_of_enables henables, h, andThen_next, andThen_fault]

theorem exec_of_sourceOf_refused {i : Instr} {s : State} {r : Refusal} (henables : s.Enables i)
    (h : sourceOf i s = .refused r) : exec i s = .refused r := by
  rw [exec_shape, checkOf_of_enables henables, h, andThen_next, andThen_refused]

/-- What completes has passed its checks and read its second source. -/
theorem ready_of_exec {i : Instr} {s t : State} (h : exec i s = .next t) : s.Ready i := by
  rw [exec_shape] at h
  obtain ⟨_, hcheck, h⟩ := andThen_eq_next h
  obtain ⟨b, hsource, _⟩ := andThen_eq_next h
  refine ⟨enables_of_checkOf hcheck, fun m hm => ?_⟩
  by_cases hmode : s.mode = .bits64
  · rw [sourceOf_mem hm hmode] at hsource
    exact admits_of_memRead hmode hsource
  · rw [sourceOf_mem_outside64 hm hmode] at hsource
    cases hsource

/-- Settles O23: the checks and the second source answer `next` exactly under the conditions of `State.Ready`. -/
theorem completesExactlyWhenReady : Obligations.CompletesExactlyWhenReady := fun _ _ =>
  ⟨fun ⟨_, h⟩ => ready_of_exec h, exec_completes_of_ready⟩

/-! ### #UD and #NM (R161, R162) -/

theorem exec_of_not_recognises {i : Instr} {s : State} (h : ¬s.Recognises i) :
    exec i s = .fault (.invalidOpcode s.rip) := by
  obtain ⟨henables, _⟩ | ⟨hrecognises, _⟩ | ⟨_, hcheck⟩ := checkOf_cases i s
  · exact absurd henables.recognised h
  · exact absurd hrecognises h
  · exact exec_of_checkOf_fault hcheck

/-- Settles O36: each condition named makes `State.Recognises` fail. -/
theorem disabledFormRaisesInvalidOpcode : Obligations.DisabledFormRaisesInvalidOpcode := by
  intro i s hdisabled
  refine exec_of_not_recognises fun ⟨hmode, hcpuid, hosxsave, havx, havx512, hmask⟩ => ?_
  obtain h | h | ⟨f, hf, h⟩ | h | h | h | ⟨hevex, h⟩ | ⟨hkn, h⟩ := hdisabled
  · exact hmode.1 h
  · exact hmode.2 h
  · cases h.symm.trans (hcpuid f hf)
  · cases h.symm.trans hosxsave
  · cases h.symm.trans havx.1
  · cases h.symm.trans havx.2
  · obtain ⟨h5, h6, h7⟩ := havx512 hevex
    obtain h | h | h := h
    · cases h.symm.trans h5
    · cases h.symm.trans h6
    · cases h.symm.trans h7
  · cases h.symm.trans (hmask hkn)

/-- D3: AVX512VL and AVX512DQ come with AVX512F. -/
theorem has_avx512f_of_has {c : Config} {f : Feature} (hf : f ≠ .avx) (h : c.has f = true) : c.has .avx512f = true := by
  cases f with
  | avx => exact absurd rfl hf
  | avx512f => exact h
  | avx512vl => exact Option.isSome_of_any h
  | avx512dq => exact Option.isSome_of_any h

/-- Every EVEX row names an AVX-512 flag (R32). -/
theorem has_avx512f_of_recognises {i : Instr} {s : State} (hevex : i.row.evex = true) (h : s.Recognises i) :
    s.cfg.has .avx512f = true := by
  obtain ⟨f, hf, hne⟩ : ∃ f ∈ i.row.needs, f ≠ .avx := by
    cases i with
    | vinsertf128 a => cases hevex
    | _ a => exact ⟨_, List.mem_cons_self, nofun⟩
  exact has_avx512f_of_has hne (h.cpuid f hf)

/-- Settles O37: an EVEX form that is recognised has AVX512F. -/
theorem noEvexFormWithoutAvx512f : Obligations.NoEvexFormWithoutAvx512f := by
  intro i s hevex hf
  refine exec_of_not_recognises fun h => ?_
  cases hf.symm.trans (has_avx512f_of_recognises hevex h)

/-- Settles O38: the checks answer #NM before the second source is read. -/
theorem taskSwitchedRaisesDeviceNotAvailable : Obligations.TaskSwitchedRaisesDeviceNotAvailable := by
  intro i s hrecognises hts
  obtain ⟨henables, _⟩ | ⟨_, _, hcheck⟩ | ⟨h, _⟩ := checkOf_cases i s
  · cases hts.symm.trans henables.ts
  · exact exec_of_checkOf_fault hcheck
  · exact absurd hrecognises h

/-! ### Memory operands (R163 to R168) -/

/-- R56, R164: the stack segment, by the base register and the override. -/
theorem inStackSegment_iff {p : Prefixes} {m : MemOp} : inStackSegment p m = true ↔
    (m.baseReg = some 4 ∨ m.baseReg = some 5) ∧ p.seg ≠ some .fs ∧ p.seg ≠ some .gs := by
  have hbase : (m.address 1).base = m.baseReg := by cases m <;> rfl
  simp only [inStackSegment, hbase, Bool.and_eq_true, Bool.or_eq_true, bne_iff_ne, beq_iff_eq]
  tauto

/-- Settles O39: the canonical check comes before the one on readable bytes. -/
theorem nonCanonicalOperandFaults : Obligations.NonCanonicalOperandFaults := by
  intro i s m j hm henables hmode hfits hj hcanonical
  have hrange : s.canonicalRange (i.linear m s).toNat (i.row.w / 8) = false := by
    refine eq_false_of_ne_true fun h => ?_
    simp [canonicalRange_iff.1 h j hj] at hcanonical
  refine exec_of_sourceOf_fault henables ?_
  rw [sourceOf_mem hm hmode, memRead_eq_fault_iff]
  refine ⟨hfits, .inl ⟨hrange, ?_⟩⟩
  simp only [inStackSegment_iff]

/-- Settles O40: the read of a canonical range with an unreadable byte faults, and the mask comes after it. -/
theorem unreadableOperandPageFaults : Obligations.UnreadableOperandPageFaults := by
  intro i s m j hm henables hmode hfits hcanonical hj hunreadable
  have hrange : s.readable (i.linear m s).toNat (i.row.w / 8) = false := by
    refine eq_false_of_ne_true fun h => ?_
    simp [readable_iff.1 h j hj] at hunreadable
  refine exec_of_sourceOf_fault henables ?_
  rw [sourceOf_mem hm hmode, memRead_eq_fault_iff]
  exact ⟨hfits, .inr ⟨canonicalRange_iff.2 hcanonical, hrange, rfl⟩⟩

/-- Settles O41: the first check of a read is on the top of the address space. -/
theorem wrappingOperandRefused : Obligations.WrappingOperandRefused := by
  intro i s m hm henables hmode hwrap
  refine exec_of_sourceOf_refused henables ?_
  rw [sourceOf_mem hm hmode]
  exact if_pos hwrap

/-- Settles O42: the last check of a read is on alignment checking. -/
theorem memoryOperandUnderAlignmentCheckingRefused : Obligations.MemoryOperandUnderAlignmentCheckingRefused := by
  intro i s m hm henables hmode hac hfits hcanonical hreadable
  refine exec_of_sourceOf_refused henables ?_
  rw [sourceOf_mem hm hmode, memRead]
  have hcanonical : s.canonicalRange (i.linear m s).toNat (i.row.w / 8) = true := canonicalRange_iff.2 hcanonical
  have hreadable : s.readable (i.linear m s).toNat (i.row.w / 8) = true := readable_iff.2 hreadable
  have hfits : ¬(i.linear m s).toNat + i.row.w / 8 > 2 ^ 64 := not_lt.2 hfits
  simp only [hcanonical, hreadable, (acEnabled_iff s).2 hac, if_neg hfits, Bool.true_eq_false, if_false, if_true]

/-- Settles O43: outside 64-bit mode a memory operand is not read. -/
theorem memoryOperandOutside64BitModeRefused : Obligations.MemoryOperandOutside64BitModeRefused := fun _ _ _ hm henables
    hmode => exec_of_sourceOf_refused henables (sourceOf_mem_outside64 hm hmode)

/-! ### Which faults and refusals there are -/

/-- A meaning is refused only by its second source, and that only where it is a memory operand. -/
theorem sourceOf_of_exec_refused {i : Instr} {s : State} {r : Refusal} (h : exec i s = .refused r) :
    sourceOf i s = .refused r := by
  rw [exec_shape] at h
  obtain hcheck | ⟨_, _, h⟩ := andThen_eq_refused h
  · obtain ⟨_, h'⟩ | ⟨_, _, h'⟩ | ⟨_, h'⟩ := checkOf_cases i s <;> cases hcheck.symm.trans h'
  · obtain hsource | ⟨_, _, h⟩ := andThen_eq_refused h
    · exact hsource
    · cases h

/-- Settles O46: a register is read in every state, a memory operand by `memRead` or not at all. -/
theorem refusalsAreTheSpecsOwn : Obligations.RefusalsAreTheSpecsOwn := by
  intro i s r h
  have hsource := sourceOf_of_exec_refused h
  cases hm : i.mem? with
  | none =>
    obtain ⟨n, hn⟩ := src2_of_mem?_none hm
    cases (sourceOf_reg hn s).symm.trans hsource
  | some m =>
    refine ⟨nofun, ?_⟩
    by_cases hmode : s.mode = .bits64
    · rw [sourceOf_mem hm hmode] at hsource
      obtain ⟨h', _⟩ | ⟨h', _⟩ | ⟨h', _⟩ | ⟨h', _⟩ | ⟨h', _⟩ :=
        memRead_cases i.row.w (inStackSegment i.args.pre m) (i.linear m s) s
      all_goals cases h'.symm.trans hsource
      · exact .inr (.inl rfl)
      · exact .inr (.inr rfl)
    · cases (sourceOf_mem_outside64 hm hmode).symm.trans hsource
      exact .inl rfl

theorem sourceOf_fault_rip {i : Instr} {s : State} {f : Fault} (h : sourceOf i s = .fault f) : f.rip = s.rip := by
  cases hm : i.mem? with
  | none =>
    obtain ⟨n, hn⟩ := src2_of_mem?_none hm
    cases (sourceOf_reg hn s).symm.trans h
  | some m =>
    by_cases hmode : s.mode = .bits64
    · rw [sourceOf_mem hm hmode, memRead_eq_fault_iff] at h
      obtain ⟨_, ⟨_, rfl⟩ | ⟨_, _, rfl⟩⟩ := h
      · split <;> rfl
      · rfl
    · cases (sourceOf_mem_outside64 hm hmode).symm.trans h

theorem exec_fault_rip {i : Instr} {s : State} {f : Fault} (h : exec i s = .fault f) : f.rip = s.rip := by
  rw [exec_eq_execAt, execAt_eq_fault_iff] at h
  obtain hcheck | ⟨_, hsource⟩ := h
  · obtain ⟨_, h'⟩ | ⟨_, _, h'⟩ | ⟨_, h'⟩ := checkOf_cases i s <;> cases hcheck.symm.trans h' <;> rfl
  · exact sourceOf_fault_rip hsource

/-- A step faults by the meaning of its instruction or with #UD. -/
theorem step_fault_rip {s : State} {f : Fault} (h : step s = .fault f) : f.rip = s.rip := by
  unfold step at h
  split at h
  · cases h
  · split at h
    · exact exec_fault_rip h
    · cases h
      rfl
    · rename_i why _
      cases why <;> simp only [refuseBytes] at h
      · split at h <;> cases h
      all_goals cases h

/-- Settles O44: every fault is raised with the `rip` of its state. -/
theorem faultsRecordTheirInstruction : Obligations.FaultsRecordTheirInstruction := by
  intro s f h
  have hrip : f.rip = s.rip := by
    obtain ⟨i, h⟩ | h := h
    · exact exec_fault_rip h
    · exact step_fault_rip h
  refine ⟨hrip, ?_⟩
  cases f <;> exact ⟨hrip, rfl, rfl⟩

end Sys2Proof.Machine
end

section
/-! PROOFS. What a completing form writes and leaves (`spec/00_scope.md` R10 to R14, `spec/95_test_vectors.md` section
7): the destination bit by bit, everything else as it was, and the invariant of the machine with it. -/

namespace Sys2Proof.Machine

/-! ### The destination and the rest of the state -/

theorem after_v_get (s : State) (i : Instr) (r : VecReg) (n : Fin 32) :
    (s.after i r).v.get n = if n = i.args.d then r else s.v.get n :=
  get_set s.v i.args.d n r

/-- No bit from 512 on is written, as no vector length passes it. -/
theorem insertedBit_of_ge {s : State} {i : Instr} {es blk p : Nat} (h : i.row.vl ≤ p) :
    s.insertedBit i es blk p = false := if_pos h

/-- The bits of the destination, at every place. -/
theorem exec_next_getLsbD {i : Instr} {s t : State} (h : exec i s = .next t) (p : Nat) :
    (t.v.get i.args.d).getLsbD p = s.insertedBit i (elementSize i) (sel i.row.vl i.row.w i.args.imm8) p := by
  obtain ⟨r, rfl, hr⟩ := exec_next_insertedBit h
  obtain ⟨_, _, _, _, hvl, _⟩ := row_lengths i
  rw [after_v_get, if_pos rfl]
  by_cases hp : p < 512
  · exact hr p hp
  · rw [insertedBit_of_ge (by omega), BitVec.getLsbD_of_ge _ _ (by omega)]

/-- Settles O29: a completing form has written `State.after`. -/
theorem onlyDestinationAndRipChange : Obligations.OnlyDestinationAndRipChange := by
  intro i s t h
  obtain ⟨r, rfl⟩ := exec_next h
  refine ⟨fun n hn => by rw [after_v_get, if_neg hn], fun _ => rfl, fun _ => rfl, ?_⟩
  exact ⟨rfl, rfl, rfl, rfl, rfl, rfl, rfl, rfl, rfl, rfl, rfl, rfl, fun _ => rfl, rfl, rfl, rfl⟩

/-- Settles O30: the bit written there is zero. -/
theorem bitsAboveVectorLengthZero : Obligations.BitsAboveVectorLengthZero := by
  intro i s t p h hp
  rw [exec_next_getLsbD h, insertedBit_of_ge hp]

/-! ### The invariant (R6, R20, R24, R34) -/

/-- A form that is recognised is no longer than the registers are. -/
theorem vl_le_maxvl {i : Instr} {s : State} (h : s.Recognises i) : i.row.vl ≤ s.cfg.maxvl := by
  obtain ⟨_, _, _, _, hvl, _⟩ := row_lengths i
  cases hevex : i.row.evex with
  | true => rwa [Config.maxvl, if_pos (has_avx512f_of_recognises hevex h)]
  | false =>
    cases i with
    | vinsertf128 a =>
      have hvl : (Instr.vinsertf128 a).row.vl = 256 := rfl
      rw [hvl, Config.maxvl]
      split <;> decide
    | _ a => cases hevex

/-- A form that is recognised writes a register that exists. -/
theorem dest_lt_nvec {i : Instr} {s : State} (h : s.Recognises i) : i.args.d.val < s.cfg.nvec := by
  cases hevex : i.row.evex with
  | true =>
    rw [Config.nvec, if_pos (has_avx512f_of_recognises hevex h)]
    exact i.args.d.isLt
  | false =>
    cases i with
    | vinsertf128 a =>
      have hd : (Instr.vinsertf128 a).args.d.val < 16 := a.d.isLt
      rw [Config.nvec]
      split <;> omega
    | _ a => cases hevex

/-- Every meaning keeps the invariant. -/
theorem exec_keeps_inv {i : Instr} {s t : State} (hinv : s.Inv) (h : exec i s = .next t) : t.Inv := by
  obtain ⟨hmem, hupper, habsent, hopmask⟩ := hinv
  have hrecognised := (ready_of_exec h).1.recognised
  have hbit := exec_next_getLsbD h
  obtain ⟨r, rfl⟩ := exec_next h
  refine ⟨hmem, fun n p hp => ?_, fun n hn => ?_, hopmask⟩
  · by_cases hd : n = i.args.d
    · rw [hd, hbit, insertedBit_of_ge ((vl_le_maxvl hrecognised).trans hp)]
    · rw [after_v_get, if_neg hd, hupper n p hp]
  · have hd : n ≠ i.args.d := by
      rintro rfl
      exact (dest_lt_nvec hrecognised).not_ge hn
    rw [after_v_get, if_neg hd, habsent n hn]

/-- Settles O33: a step that goes on is a meaning. -/
theorem stepKeepsInvariant : Obligations.StepKeepsInvariant := by
  intro s t hinv h
  obtain ⟨_, i, _, _, hexec⟩ := step_next h
  exact exec_keeps_inv hinv hexec

/-- Settles O34: the launch state has no bit set in any register that could lack it. -/
theorem launchStateHasInvariant : Obligations.LaunchStateHasInvariant where
  mem := reset_mem_wf
  upper n p _ := by
    have hv : State.reset.v.get n = 0 := Vector.getElem_replicate n.isLt
    rw [hv]
    exact BitVec.getLsbD_zero
  absent n _ := Vector.getElem_replicate n.isLt
  opmask n p _ := by
    have hk : State.reset.k.get n = 0 := Vector.getElem_replicate n.isLt
    rw [hk]
    exact BitVec.getLsbD_zero

/-- Settles O35: the program of the launch state is empty, and its registers are evaluated. -/
theorem launchStateMeetsPremises : Obligations.LaunchStateMeetsPremises where
  mode64 := rfl
  osxsave := by decide
  xcr0Avx := by decide
  xcr0Avx512 := by decide
  tsClear := by decide
  noAc := by decide
  noWrap := rfl
  text _ hj := absurd hj (Nat.not_lt_zero _)
  atStart := rfl
  notBegun := rfl

/-! ### VINSERTF128 (R110 to R112) -/

/-- Every encoding of a form selects its row. -/
theorem selectedBy_encode (i : Instr) : i.selectedBy (encode i) = true := by
  rw [Instr.selectedBy, drop_encode, ← List.append_nil (i.bodyBytes _ _), bodyBytes_masked, beq_self_eq_true]

/-- Without a mask a form writes what INSERT gives. -/
theorem resultOf_unmasked {i : Instr} (hkn : i.args.kn = 0) (s : State) (b : BitVec i.row.w) :
    resultOf i s b = insertBlock (s.view i.row.vl i.args.s1) b (sel i.row.vl i.row.w i.args.imm8) := by
  obtain ⟨hes, hdvd, _⟩ := row_lengths i
  rw [resultOf, State.writemask, if_pos hkn, masked_none _ _ _ _ hes hdvd]

/-- INSERT into the high half of 256 bits keeps the low half. -/
theorem insertBlock_high (v : VecReg) (b : BitVec 128) :
    insertBlock (v.setWidth 256) b 1 = b ++ v.extractLsb' 0 128 := by
  apply BitVec.eq_of_getLsbD_eq
  intro p hp
  rw [insertBlock_getLsbD _ _ _ _ hp, BitVec.getLsbD_append]
  by_cases h : p < 128
  · rw [if_neg (by omega), if_pos h]
    simp [h, hp]
  · rw [if_pos (by omega), if_neg h]

/-- INSERT into the low half of 256 bits keeps the high half. -/
theorem insertBlock_low (v : VecReg) (b : BitVec 128) :
    insertBlock (v.setWidth 256) b 0 = v.extractLsb' 128 128 ++ b := by
  apply BitVec.eq_of_getLsbD_eq
  intro p hp
  rw [insertBlock_getLsbD _ _ _ _ hp, BitVec.getLsbD_append]
  by_cases h : p < 128
  · rw [if_pos (by omega), if_pos h]
    rfl
  · have hhigh : 128 + (p - 128) = p := by omega
    rw [if_neg (by omega), if_neg h]
    simp [hp, hhigh, show p - 128 < 128 by omega]

/-- R14: a ymm value in a whole register stands under zeros. -/
theorem setWidth_eq_zero_append (ymm : BitVec 256) : ymm.setWidth 512 = 0#256 ++ ymm := by
  apply BitVec.eq_of_getLsbD_eq
  intro p hp
  rw [BitVec.getLsbD_setWidth, BitVec.getLsbD_append, BitVec.getLsbD_zero, decide_eq_true hp, Bool.true_and]
  split
  · rfl
  · exact BitVec.getLsbD_of_ge _ _ (by omega)

/-- Settles O16: one half of SRC1 is kept beside SRC2, and the zero extension to the whole register is D4's. -/
theorem vinsertf128Inserts : Obligations.Vinsertf128Inserts := by
  intro a s hready
  refine ⟨selectedBy_encode _, ?_⟩
  obtain ⟨b, hb⟩ := sourceOf_of_admits hready.2
  have hymm : resultOf (.vinsertf128 a) s b =
      insertBlock ((s.v.get (vexReg a.s1)).setWidth 256) b (a.imm8.toNat % 2) := by
    rw [resultOf_unmasked rfl, sel_row_eq_mod (i := .vinsertf128 a) (n := 2) (by decide : 256 / 128 = 2)]
    rfl
  have hbit : a.imm8.getLsbD 0 = true ↔ a.imm8.toNat % 2 = 1 := by simp [BitVec.getLsbD]
  refine ⟨b, resultOf (.vinsertf128 a) s b, fun q hq => sourceOf_getLsbD hb hq, fun h => ?_, fun h => ?_, ?_⟩
  · rw [hymm, hbit.1 h]
    exact insertBlock_high _ b
  · rw [hymm, Nat.mod_two_not_eq_one.1 fun h' => Bool.noConfusion (h.symm.trans (hbit.2 h'))]
    exact insertBlock_low _ b
  · rw [exec_shape, checkOf_of_enables hready.1, hb, andThen_next, andThen_next]
    exact congrArg (fun r => Host.Outcome.next (s.after (.vinsertf128 a) r)) (setWidth_eq_zero_append _)

end Sys2Proof.Machine
end

section
/-! PROOFS. What a form does not depend on (`spec/95_test_vectors.md` section 7 item 7, `spec/60_exceptions.md` R173,
`spec/20_memory.md` R61): opmask registers for faults, unread bits, memory outside the operand, address state for
register forms, the privilege level, `k[0]`. -/

namespace Sys2Proof.Machine

/-! ### Completion under other vector and opmask registers -/

/-- A refusal comes from the second source of a form whose checks pass. -/
theorem exec_eq_refused_iff {i : Instr} {s : State} {r : Refusal} :
    exec i s = .refused r ↔ checkOf i s = .next () ∧ sourceOf i s = .refused r := by
  constructor
  · intro h
    refine ⟨?_, sourceOf_of_exec_refused h⟩
    obtain ⟨_, hcheck⟩ | ⟨_, _, hcheck⟩ | ⟨_, hcheck⟩ := checkOf_cases i s
    · exact hcheck
    all_goals cases h.symm.trans (exec_of_checkOf_fault hcheck)
  · rintro ⟨hcheck, hsource⟩
    exact exec_of_sourceOf_refused (enables_of_checkOf hcheck) hsource

/-- Settles O47: neither the checks nor the second source read an opmask register. -/
theorem writemaskDoesNotGateTheRead : Obligations.WritemaskDoesNotGateTheRead := by
  intro i s k
  have hcheck : checkOf i { s with k := k } = checkOf i s := rfl
  have hsource : sourceOf i { s with k := k } = sourceOf i s := rfl
  refine ⟨fun f => ?_, fun r => ?_⟩
  · rw [exec_eq_execAt, exec_eq_execAt, execAt_eq_fault_iff, execAt_eq_fault_iff, hcheck, hsource]
  · rw [exec_eq_refused_iff, exec_eq_refused_iff, hcheck, hsource]

/-- What vector and opmask registers hold does not decide whether a form completes. -/
theorem exec_completes_of_data {i : Instr} {s t : State} (v : Vector VecReg 32) (k : Vector Opmask 8)
    (h : exec i s = .next t) : ∃ u, exec i { s with v := v, k := k } = .next u := by
  have hready := ready_of_exec h
  have hcheck : checkOf i { s with v := v, k := k } = .next () := (checkOf_of_enables hready.1 :)
  have hsource : ∃ b, sourceOf i { s with v := v, k := k } = .next b := by
    cases hm : i.mem? with
    | none =>
      obtain ⟨n, hn⟩ := src2_of_mem?_none hm
      exact ⟨_, sourceOf_reg hn _⟩
    | some m =>
      obtain ⟨b, hb⟩ := sourceOf_of_admits hready.2
      have hmode := (hready.2 m hm).mode
      rw [sourceOf_mem hm hmode] at hb
      exact ⟨b, (sourceOf_mem (s := { s with v := v, k := k }) hm hmode).trans hb⟩
  obtain ⟨b, hb⟩ := hsource
  exact ⟨_, by rw [exec_shape, hcheck, hb, andThen_next, andThen_next]⟩

/-- R13, R77: a form with a mask field reads KL = VL / ES mask bits. -/
theorem kl_eq_div {i : Instr} (hkn : i.args.kn ≠ 0) : i.kl = i.row.vl / elementSize i := by
  cases i with
  | vinsertf128 a => exact absurd rfl hkn
  | _ a => simp [Instr.kl, Instr.row, elementSize]

/-- The mask bit of a bit below VL is one of the KL that the form reads. -/
theorem element_lt_kl {i : Instr} (hkn : i.args.kn ≠ 0) {p : Nat} (hp : p < i.row.vl) : p / elementSize i < i.kl := by
  obtain ⟨_, hdvd, _⟩ := row_lengths i
  rw [kl_eq_div hkn]
  exact Nat.div_lt_div_of_lt_of_dvd hdvd hp

/-- Two forms with the same operands and lengths write the same bit where they read the same mask bit, second source
bit, first source bit and old bit, each as far as it is read. -/
theorem insertedBit_congr {s s' : State} {i i' : Instr} {es es' blk p : Nat} (hargs : i'.args = i.args)
    (hvl : i'.row.vl = i.row.vl) (hw : i'.row.w = i.row.w)
    (hmask : p < i.row.vl → i.args.kn ≠ 0 →
      (s'.k.get i.args.kn).getLsbD (p / es') = (s.k.get i.args.kn).getLsbD (p / es))
    (hsrc2 : s'.src2Bit i' (p % i.row.w) = s.src2Bit i (p % i.row.w))
    (hs1 : p < i.row.vl → (s'.v.get i.args.s1).getLsbD p = (s.v.get i.args.s1).getLsbD p)
    (hold : p < i.row.vl → i.args.kn ≠ 0 → i.args.z = false →
      (s'.v.get i.args.d).getLsbD p = (s.v.get i.args.d).getLsbD p) :
    s'.insertedBit i' es' blk p = s.insertedBit i es blk p := by
  simp only [State.insertedBit, hargs, hvl, hw, hsrc2]
  by_cases hp : i.row.vl ≤ p
  · rw [if_pos hp, if_pos hp]
  · have hp' : p < i.row.vl := Nat.lt_of_not_le hp
    rw [if_neg hp, if_neg hp, hs1 hp']
    by_cases hkn : i.args.kn = 0
    · simp only [hkn, true_or, if_true]
    · rw [hmask hp' hkn]
      cases hz : i.args.z with
      | true => rfl
      | false => rw [hold hp' hkn hz]

/-- Settles O48: bit by bit, a bit of the destination is made of read bits. -/
theorem unreadBitsDoNotMatter : Obligations.UnreadBitsDoNotMatter := by
  intro i s t v k hs1 hreg hmask hold h
  obtain ⟨u, hu⟩ := exec_completes_of_data v k h
  refine ⟨u, hu, BitVec.eq_of_getLsbD_eq fun p _ => ?_⟩
  obtain ⟨_, _, hw, _⟩ := row_lengths i
  have hsrc2 : State.src2Bit { s with v := v, k := k } i (p % i.row.w) = s.src2Bit i (p % i.row.w) := by
    unfold State.src2Bit
    split
    case h_1 n hn => exact hreg n hn _ (Nat.mod_lt p hw)
    case h_2 => rfl
  rw [exec_next_getLsbD hu, exec_next_getLsbD h]
  exact insertedBit_congr rfl rfl rfl (fun hp hkn => hmask hkn _ (element_lt_kl hkn hp)) hsrc2 (hs1 p)
    fun hp hkn hz => hold hkn hz p hp

/-! ### Memory and address state -/

/-- A load reads the bytes at its addresses and no other. -/
theorem load_congr {w : Nat} {m m' : Memory} {a : Nat} :
    ∀ {n : Nat}, (∀ q < n, m'.readByte (a + q) = m.readByte (a + q)) → Memory.load w m' a n = Memory.load w m a n
  | 0, _ => rfl
  | n + 1, h => by
    rw [Memory.load, Memory.load, load_congr fun q hq => h q (Nat.lt_succ_of_lt hq), h n (Nat.lt_succ_self n)]

/-- Settles O49: the second source is the load from the operand's bytes. -/
theorem onlyOperandBytesAreRead : Obligations.OnlyOperandBytesAreRead := by
  intro i s m mem hm hbytes
  refine exec_eq_mapNext (g := fun t => { t with mem := mem }) rfl ?_ fun _ => rfl
  by_cases hmode : s.mode = .bits64
  · have hload : Memory.load i.row.w mem (i.linear m s).toNat (i.row.w / 8) =
        Memory.load i.row.w s.mem (i.linear m s).toNat (i.row.w / 8) := load_congr hbytes
    rw [sourceOf_mem hm hmode, sourceOf_mem (s := { s with mem := mem }) hm hmode, memRead, memRead, ← hload]
    rfl
  · rw [sourceOf_mem_outside64 hm hmode, sourceOf_mem_outside64 (s := { s with mem := mem }) hm hmode]

/-- Settles O50: the second source is a register, and nothing else reads any of these. -/
theorem registerFormsIgnoreAddressState : Obligations.RegisterFormsIgnoreAddressState := by
  intro i s x fs gs rflags cpl mem hm
  obtain ⟨n, hn⟩ := src2_of_mem?_none hm
  refine exec_eq_mapNext
    (g := fun t => { t with x := x, fsBase := fs, gsBase := gs, rflags := rflags, cpl := cpl, mem := mem })
    rfl ?_ fun _ => rfl
  rw [sourceOf_reg hn, sourceOf_reg hn]
  rfl

/-- Settles O51: CPL is read by alignment checking alone, which CR0.AM = 0 turns off. -/
theorem privilegeLevelDoesNotMatter : Obligations.PrivilegeLevelDoesNotMatter := by
  intro i s cpl ham
  have hac (s' : State) (h : s'.cr0 = s.cr0) : s'.acEnabled = false := by
    simp only [State.acEnabled, State.am, h, ham, Bool.false_and]
  refine exec_eq_mapNext (g := fun t => { t with cpl := cpl }) rfl ?_ fun _ => rfl
  cases hm : i.mem? with
  | none =>
    obtain ⟨n, hn⟩ := src2_of_mem?_none hm
    rw [sourceOf_reg hn, sourceOf_reg hn]
    rfl
  | some m =>
    by_cases hmode : s.mode = .bits64
    · rw [sourceOf_mem hm hmode, sourceOf_mem (s := { s with cpl := cpl }) hm hmode, memRead, memRead, hac s rfl,
        hac { s with cpl := cpl } rfl]
      rfl
    · rw [sourceOf_mem_outside64 hm hmode, sourceOf_mem_outside64 (s := { s with cpl := cpl }) hm hmode]

/-- R25: the mask field 000 names no register, so `k[0]` is never the writemask. -/
theorem writemask_set_zero (s : State) (m : Opmask) (kn : Fin 8) :
    State.writemask kn { s with k := s.k.set 0 m } = s.writemask kn := by
  unfold State.writemask
  split
  · rfl
  · rename_i hkn
    exact congrArg some ((get_set s.k 0 kn m).trans (if_neg hkn))

/-- Settles O52: the writemask is all that a meaning sees of the opmask registers. -/
theorem opmaskZeroIsNeverRead : Obligations.OpmaskZeroIsNeverRead := by
  intro i s m
  refine exec_eq_mapNext (g := fun t => { t with k := t.k.set 0 m }) rfl rfl fun b => ?_
  have hresult : resultOf i { s with k := s.k.set 0 m } b = resultOf i s b := by
    rw [resultOf, writemask_set_zero]
    rfl
  rw [hresult]
  rfl

end Sys2Proof.Machine
end

section
/-! PROOFS. Relations between forms and corner cases (`spec/40_vinsertf128.md` R114,
`spec/41_vinsertf32x4_vinsertf64x2.md` R125 and R127, `spec/42_vinsertf32x8_vinsertf64x4.md` R143,
`spec/95_test_vectors.md` section 7 items 4 to 6). -/

namespace Sys2Proof.Machine

/-! ### Granularities -/

/-- What a ready form without a mask answers, its element size aside. -/
theorem exec_unmasked {i : Instr} {s : State} (henables : s.Enables i) (hkn : i.args.kn = 0) :
    exec i s = (sourceOf i s).andThen fun b => .next (s.after i
      ((insertBlock (s.view i.row.vl i.args.s1) b (sel i.row.vl i.row.w i.args.imm8)).setWidth 512)) := by
  simp only [exec_shape, checkOf_of_enables henables, andThen_next, resultOf_unmasked hkn]

/-- Settles O53: without a mask the element size is not read. -/
theorem unmaskedGranularitiesAgree : Obligations.UnmaskedGranularitiesAgree := by
  intro a s hkn
  refine ⟨fun h h' => ?_, fun h h' => ?_, fun h h' => ?_⟩
  all_goals
    rw [exec_unmasked h.1 hkn, exec_unmasked h'.1 hkn]
    rfl

/-- Two completing forms with one destination leave the same vector registers when they write the same bits. -/
theorem exec_next_v_eq {i i' : Instr} {s s' t u : State} (h : exec i s = .next t) (h' : exec i' s' = .next u)
    (hv : s'.v = s.v) (hd : i'.args.d = i.args.d)
    (hbits : ∀ p, s'.insertedBit i' (elementSize i') (sel i'.row.vl i'.row.w i'.args.imm8) p =
      s.insertedBit i (elementSize i) (sel i.row.vl i.row.w i.args.imm8) p) : t.v = u.v := by
  have hdest : t.v.get i.args.d = u.v.get i'.args.d :=
    BitVec.eq_of_getLsbD_eq fun p _ => by rw [exec_next_getLsbD h, exec_next_getLsbD h', hbits]
  obtain ⟨r, rfl⟩ := exec_next h
  obtain ⟨r', rfl⟩ := exec_next h'
  rw [after_v_get, after_v_get, if_pos rfl, if_pos rfl] at hdest
  simp only [State.after, hv, hd, hdest]

/-- A bit of the second source depends on the operand through its register or its linear address. -/
theorem src2Bit_congr {s s' : State} {i i' : Instr} {q : Nat} (hargs : i'.args = i.args) (hv : s'.v = s.v)
    (hmem : s'.mem = s.mem) (hlinear : ∀ m, i.mem? = some m → i'.linear m s' = i.linear m s) :
    s'.src2Bit i' q = s.src2Bit i q := by
  unfold State.src2Bit
  rw [hargs]
  split
  case h_1 n hn => rw [hv]
  case h_2 m hm => rw [hmem, hlinear m (by rw [Instr.mem?, hm])]

/-- Settles O54: the forms have the same operands, no mask, and the same second source. -/
theorem vexAgreesWithUnmaskedEvex : Obligations.VexAgreesWithUnmaskedEvex := by
  intro a s i hi hready hready' hlinear
  obtain ⟨t, ht⟩ := exec_completes_of_ready hready
  obtain ⟨u, hu⟩ := exec_completes_of_ready hready'
  obtain ⟨hargs, hvl, hw⟩ : i.args = (Instr.vinsertf128 a).args ∧ i.row.vl = 256 ∧ i.row.w = 128 := by
    obtain rfl | rfl := hi <;> exact ⟨rfl, rfl, rfl⟩
  refine ⟨t, u, ht, hu, exec_next_v_eq ht hu rfl (by rw [hargs]) fun p => ?_⟩
  rw [hargs, hvl, hw]
  have hsrc2 : s.src2Bit i (p % 128) = s.src2Bit (.vinsertf128 a) (p % 128) :=
    src2Bit_congr hargs rfl rfl fun m hm => (hlinear m (by rwa [Instr.mem?, hargs])).symm
  exact insertedBit_congr hargs hvl hw (fun _ hkn => absurd rfl hkn) hsrc2 (fun _ => rfl) fun _ _ _ => rfl

/-- R127, R143: the mask bit of a 32-bit element of a doubled mask is that of the 64-bit element it lies in. -/
theorem doubled_getLsbD {m k : Opmask}
    (h : ∀ j < 8, m.getLsbD (2 * j) = k.getLsbD j ∧ m.getLsbD (2 * j + 1) = k.getLsbD j) {p : Nat}
    (hp : p < 512) : m.getLsbD (p / 32) = k.getLsbD (p / 64) := by
  obtain ⟨heven, hodd⟩ := h (p / 64) (by omega)
  obtain h | h : p / 32 = 2 * (p / 64) ∨ p / 32 = 2 * (p / 64) + 1 := by omega
  · rw [h, heven]
  · rw [h, hodd]

/-- Settles O55: an element of 64 bits is on exactly where its two elements of 32 bits are. -/
theorem doubledMaskRelatesGranularities : Obligations.DoubledMaskRelatesGranularities := by
  intro a s m i i' hforms hkn hdouble hready hready'
  obtain ⟨hargs, hargs', hvl, hw, hn, hlen, hes, hes'⟩ : i.args = a ∧ i'.args = i.args ∧ i'.row.vl = i.row.vl ∧
      i'.row.w = i.row.w ∧ i'.row.n = i.row.n ∧ i'.len = i.len ∧ elementSize i = 64 ∧ elementSize i' = 32 := by
    obtain ⟨rfl, rfl⟩ | ⟨rfl, rfl⟩ | ⟨rfl, rfl⟩ := hforms <;> exact ⟨rfl, rfl, rfl, rfl, rfl, rfl, rfl, rfl⟩
  subst hargs
  obtain ⟨t, ht⟩ := exec_completes_of_ready hready
  obtain ⟨_, hu⟩ := exec_completes_of_ready hready'
  obtain ⟨u, hu⟩ := exec_completes_of_data s.v (s.k.set i.args.kn m) hu
  refine ⟨t, u, ht, hu, exec_next_v_eq ht hu rfl (by rw [hargs']) fun p => ?_⟩
  obtain ⟨_, _, _, _, hvl512, _⟩ := row_lengths i
  rw [hargs', hvl, hw, hes, hes']
  refine insertedBit_congr hargs' hvl hw (fun hp _ => ?_) ?_ (fun _ => rfl) fun _ _ _ => rfl
  · have hk : (s.k.set i.args.kn m).get i.args.kn = m := (get_set _ _ _ _).trans (if_pos rfl)
    rw [hk]
    exact doubled_getLsbD hdouble (hp.trans_le hvl512)
  · refine src2Bit_congr hargs' rfl rfl fun m _ => ?_
    rw [Instr.linear, hargs', hn, hlen]
    rfl

/-! ### Uniform masks -/

/-- Settles O56: where every element is off, the bit written is zero or the old one. -/
theorem allZeroMaskKeepsOrClears : Obligations.AllZeroMaskKeepsOrClears := by
  intro i s t hkn hoff h
  have hbit (p : Nat) : (t.v.get i.args.d).getLsbD p =
      (decide (p < i.row.vl) && (!i.args.z && (s.v.get i.args.d).getLsbD p)) := by
    rw [exec_next_getLsbD h, State.insertedBit]
    by_cases hp : i.row.vl ≤ p
    · simp [hp]
    · have hp' := hoff _ (element_lt_kl hkn (Nat.lt_of_not_le hp))
      simp only [if_neg hp, hkn, hp', Bool.false_eq_true, or_self, if_false, decide_eq_true (Nat.lt_of_not_le hp)]
      cases i.args.z <;> rfl
  refine ⟨fun hz => BitVec.eq_of_getLsbD_eq fun p _ => ?_, fun hz p => ?_⟩
  · rw [hbit, hz]
    simp
  · rw [hbit, hz]
    rfl

/-- MASKED with every element on gives its second value. -/
theorem masked_all_on {vl es : Nat} {old t : BitVec vl} {m : Option Opmask} {z : Bool} (hes : 0 < es) (hdvd : es ∣ vl)
    (hon : ∀ j < vl / es, m.all (·.getLsbD j) = true) : masked es old t m z = t := by
  apply BitVec.eq_of_getLsbD_eq
  intro p hp
  rw [masked_getLsbD _ _ _ _ _ hp hes hdvd, if_pos (hon _ (Nat.div_lt_div_of_lt_of_dvd hdvd hp))]

/-- An EVEX form whose mask bits are all on does the same without mask and zeroing. -/
theorem evexInsert_unmask {vl w es n : Nat} {needs : List Feature} {a : EvexArgs} {s t : State} (hes : 0 < es)
    (hdvd : es ∣ vl) (hon : ∀ j < vl / es, (s.k.get a.kn).getLsbD j = true)
    (h : evexInsert vl w es n needs a s = .next t) :
    evexInsert vl w es n needs { a with kn := 0, z := false } s = .next t := by
  obtain ⟨_, hcheck, h⟩ := andThen_eq_next h
  obtain ⟨b, hsource, h⟩ := andThen_eq_next h
  have hcheck' : checkEvex needs 0 false s = .next () := by
    unfold checkEvex at hcheck
    split at hcheck
    · exact hcheck
    · cases hcheck
  rw [evexInsert_of (a := { a with kn := 0, z := false }) hcheck' hsource, ← h]
  dsimp only
  rw [masked_all_on hes hdvd fun j hj => (writemask_all s a.kn j).2 (.inr (hon j hj)),
    masked_all_on hes hdvd fun j _ => (writemask_all s 0 j).2 (.inl rfl)]
  rfl

/-- Settles O57: for the six EVEX forms, all of which are `evexInsert`. -/
theorem allOnesMaskIsNoMask : Obligations.AllOnesMaskIsNoMask := by
  intro a s t row hrow hon h
  simp only [List.mem_cons, List.not_mem_nil, or_false] at hrow
  obtain rfl | rfl | rfl | rfl | rfl | rfl := hrow
  all_goals exact evexInsert_unmask (by decide) (by decide) hon h

/-! ### Repetition -/

/-- Writing a register twice and noting a wrap twice is doing it once. -/
theorem after_after (s : State) (i : Instr) (r : VecReg) :
    State.after { s.after i r with rip := s.rip } i r = s.after i r := by
  simp only [State.after, Vector.set_set, Bool.or_assoc, Bool.or_self]

/-- A register that is not the destination, and memory, are the same second source after the instruction. -/
theorem sourceOf_after {s : State} {i : Instr} (r : VecReg) (hsrc2 : i.args.src2 ≠ .reg i.args.d) :
    sourceOf i { s.after i r with rip := s.rip } = sourceOf i s := by
  cases hsrc : i.args.src2 with
  | reg n =>
    have hn : n ≠ i.args.d := fun h => hsrc2 (by rw [hsrc, h])
    rw [sourceOf_reg hsrc, sourceOf_reg hsrc, State.view, State.view, after_v_get, if_neg hn]
  | mem m =>
    rw [sourceOf, sourceOf, hsrc]
    rfl

/-- A bit of a second source that is not the destination is the same after the instruction. -/
theorem src2Bit_after {s : State} {i : Instr} {q : Nat} (r : VecReg) (hsrc2 : i.args.src2 ≠ .reg i.args.d) :
    State.src2Bit { s.after i r with rip := s.rip } i q = s.src2Bit i q := by
  unfold State.src2Bit
  split
  case h_1 n hn => rw [after_v_get, if_neg fun h => hsrc2 (by rw [hn, h])]
  case h_2 => rfl

/-- The bit a repetition writes is the one written before: taken from the same source, zeroed again, or kept. -/
theorem insertedBit_after {s : State} {i : Instr} {r : VecReg} {es blk p : Nat} (hs1 : i.args.d ≠ i.args.s1)
    (hsrc2 : i.args.src2 ≠ .reg i.args.d) (hr : r.getLsbD p = s.insertedBit i es blk p) :
    State.insertedBit { s.after i r with rip := s.rip } i es blk p = r.getLsbD p := by
  have hk : (s.after i r).k = s.k := rfl
  rw [State.insertedBit] at hr ⊢
  rw [src2Bit_after r hsrc2]
  simp only [after_v_get, hk, if_neg hs1.symm, if_true]
  split_ifs at hr ⊢
  · exact hr.symm
  · exact hr.symm
  · exact hr.symm
  · exact hr.symm
  · rfl

/-- Settles O58: the checks and the second source answer as before, and the same bits are written again. -/
theorem repeatingAnInsertChangesNothing : Obligations.RepeatingAnInsertChangesNothing := by
  intro i s t hs1 hsrc2 h
  have hready := ready_of_exec h
  obtain ⟨b, hb⟩ := sourceOf_of_admits hready.2
  obtain ⟨r, rfl, hr⟩ := exec_next_insertedBit h
  have hcheck : checkOf i { s.after i r with rip := s.rip } = .next () := (checkOf_of_enables hready.1 :)
  have hb := (sourceOf_after r hsrc2).trans hb
  have hresult : (resultOf i { s.after i r with rip := s.rip } b).setWidth 512 = r :=
    BitVec.eq_of_getLsbD_eq fun p hp => by rw [resultOf_getLsbD hb hp, insertedBit_after hs1 hsrc2 (hr p hp)]
  rw [exec_shape, hcheck, hb, andThen_next, andThen_next, hresult, after_after]

end Sys2Proof.Machine
end

section
/-! PROOFS. Bytes that are no instruction, or an instruction of the spec's vectors (`spec/30_encoding.md` R71, R74, R91,
`spec/95_test_vectors.md` section 3): legacy bytes in either order, forbidden and repeated ones, VEX.W = 1, reserved
EVEX encodings. -/

namespace Sys2Proof

/-- Settles O3: both are the two legacy bytes, in their two orders. -/
theorem legacyByteOrderDoesNotMatter : Obligations.LegacyByteOrderDoesNotMatter := fun g rest =>
  (decode_bytesIn_append { seg := some g, asz32 := true } true rest).trans
    (decode_bytesIn_append { seg := some g, asz32 := true } false rest).symm

/-- Settles O6: the decoder evaluated on the vectors. -/
theorem specEncodingsDecode : Obligations.SpecEncodingsDecode := by
  unfold Obligations.SpecEncodingsDecode
  decide

/-- Behind accepted legacy bytes, 62 begins an EVEX encoding. -/
theorem decode_evex (p : Prefixes) (reversed : Bool) (bs : List Byte) :
    decode (p.bytesIn reversed ++ 0x62 :: bs) = decodeEvex p bs :=
  decode_bytesIn_append p reversed (0x62 :: bs)

/-! ### Reserved EVEX encodings (R91) and VEX.W = 1 (D5) -/

/-- R77: an opcode, W and L'L that select no row. -/
theorem evexRow_eq_none {op : Byte} {w : Bool} {ll : BitVec 2}
    (h : (op = 0x18 ∧ (ll = 0 ∨ ll = 3)) ∨ (op = 0x1A ∧ ll ≠ 2)) : evexRow op w ll = none := by
  obtain ⟨rfl, rfl | rfl⟩ | ⟨rfl, hll⟩ := h
  · rfl
  · rfl
  · exact (if_neg (by decide)).trans (if_neg hll)

/-- Settles O8: the reserved bits are looked at first, then the row, b, and z with aaa. -/
theorem reservedEvexEncodingsRaiseInvalidOpcode : Obligations.ReservedEvexEncodingsRaiseInvalidOpcode := by
  intro p reversed p0 p1 p2 op rest h
  rw [decode_evex, decodeEvex]
  by_cases hreserved : p0.extractLsb' 2 2 ≠ 0 ∨ p1.getLsbD 2 = false
  · exact if_pos hreserved
  · obtain h | h | ⟨hmm, hpp, hop, hillegal⟩ := h
    · exact absurd (.inl h) hreserved
    · exact absurd (.inr h) hreserved
    · have hfamily : ¬(p0.extractLsb' 0 2 ≠ 3 ∨ p1.extractLsb' 0 2 ≠ 1 ∨ op ≠ 0x18 ∧ op ≠ 0x1A) := by tauto
      rw [if_neg hreserved, if_neg hfamily]
      obtain hrow | hrow | hb | ⟨hz, haaa⟩ := hillegal
      · rw [evexRow_eq_none (.inl hrow)]
      · rw [evexRow_eq_none (.inr hrow)]
      · split
        · rfl
        · rw [if_pos hb]
      · have hmask : maskWellFormed (p2.extractLsb' 0 3).toFin (p2.getLsbD 7) = false := by
          rw [haaa, hz]
          rfl
        split
        · rfl
        · rw [if_pos hmask, ite_self]

/-- Settles O9: W is looked at when L = 1. -/
theorem vexWideRefused : Obligations.VexWideRefused := by
  intro p reversed b1 b2 rest hmap hpp hl hw
  rw [decode_vex]
  have hfamily : ¬(b1.extractLsb' 0 5 ≠ 3 ∨ b2.extractLsb' 0 2 ≠ 1 ∨ (0x18 : Byte) ≠ 0x18) := by tauto
  exact (if_neg hfamily).trans ((if_neg (by simp [hl])).trans (if_pos hw))

/-! ### Forbidden and repeated legacy bytes (R71, D21) -/

theorem forbiddenByte_iff : ∀ {b : Byte}, forbiddenByte b = true ↔ ForbiddenLegacy b := by
  unfold ForbiddenLegacy
  decide

theorem segOverrideOf_byte (g : SegOverride) : segOverrideOf g.byte = some g := by
  cases g <;> rfl

/-- Behind a forbidden byte a legacy byte, accepted or forbidden, changes nothing. -/
theorem decodeFrom_bad_legacy {p : Prefixes} {b : Byte} {bs : List Byte} (h : AcceptedLegacy b ∨ ForbiddenLegacy b) :
    decodeFrom p true (b :: bs) = decodeFrom p true bs := by
  have hlegacy : forbiddenByte b = true ∨ b = 0x67 ∨ (segOverrideOf b).isSome = true := by
    obtain (rfl | ⟨g, rfl⟩) | h := h
    · exact .inr (.inl rfl)
    · exact .inr (.inr (by rw [segOverrideOf_byte]; rfl))
    · exact .inl (forbiddenByte_iff.2 h)
  have hescape : ¬(b = 0xC4 ∨ b = 0x62) := by
    rintro (rfl | rfl) <;> exact absurd hlegacy (by decide)
  rw [decodeFrom_bad_cons, if_neg hescape, if_pos hlegacy]

/-- Behind a forbidden byte and any legacy bytes, C4 and 62 raise #UD. -/
theorem decodeFrom_bad_escape {p : Prefixes} {more rest : List Byte} {c : Byte}
    (hmore : ∀ b ∈ more, AcceptedLegacy b ∨ ForbiddenLegacy b) (hc : c = 0xC4 ∨ c = 0x62) :
    decodeFrom p true (more ++ c :: rest) = .invalidOpcode := by
  induction more with
  | nil => exact (decodeFrom_bad_cons p c rest).trans (if_pos hc)
  | cons b more ih =>
    rw [List.cons_append, decodeFrom_bad_legacy (hmore b List.mem_cons_self)]
    exact ih fun b' hb' => hmore b' (List.mem_cons_of_mem b hb')

/-- A forbidden byte is noted. -/
theorem decodeFrom_forbidden {p : Prefixes} {f : Byte} {bs : List Byte} (h : ForbiddenLegacy f) :
    decodeFrom p false (f :: bs) = decodeFrom p true bs := by
  have hf := forbiddenByte_iff.2 h
  have hvex : f ≠ 0xC4 := by
    rintro rfl
    exact absurd hf (by decide)
  have hevex : f ≠ 0x62 := by
    rintro rfl
    exact absurd hf (by decide)
  rw [decodeFrom, if_neg hvex, if_neg hevex, if_pos hf]

/-- Settles O10: the forbidden byte is noted, and C4 or 62 finds it noted. -/
theorem forbiddenLegacyByteRaisesInvalidOpcode : Obligations.ForbiddenLegacyByteRaisesInvalidOpcode := by
  intro p reversed f more rest hf hmore
  have hdecode {c : Byte} (hc : c = 0xC4 ∨ c = 0x62) :
      decode (p.bytesIn reversed ++ f :: more ++ c :: rest) = .invalidOpcode := by
    rw [List.append_assoc, decode_bytesIn_append, List.cons_append, decodeFrom_forbidden hf,
      decodeFrom_bad_escape hmore hc]
  exact ⟨hdecode (.inl rfl), hdecode (.inr rfl)⟩

/-- Settles O11: a legacy byte of a kind that is already there is refused. -/
theorem repeatedLegacyByteRefused : Obligations.RepeatedLegacyByteRefused := by
  intro p reversed rest
  obtain ⟨seg, asz⟩ := p
  refine ⟨fun hseg h => ?_, fun hasz => ?_⟩
  · obtain ⟨g, rfl⟩ := Option.ne_none_iff_exists'.1 hseg
    rw [decode_bytesIn_append]
    cases h <;> rfl
  · cases hasz
    rw [decode_bytesIn_append]
    rfl

end Sys2Proof
end

section
/-! PROOFS. Bytes that are cut short (`spec/30_encoding.md` R96): more bytes behind a sequence change only the bytes
left over, unless the sequence itself ran out. -/

namespace Sys2Proof

/-- What a byte sequence is, with more bytes left over behind it. -/
def Decoded.leaving (more : List Byte) : Decoded → Decoded
  | .instr i rest => .instr i (rest ++ more)
  | .invalidOpcode => .invalidOpcode
  | .refused why => .refused why

/-- Operands are read from the first bytes alone. -/
theorem takeOperands_append {nreg : Nat} {regNo : BitVec 3 → Fin nreg} {regX x b : Bool}
    (hreg : ∀ (rm : BitVec 3) (n : Fin nreg), regNo rm = n ↔ (Src2.reg n).Fits regX x b ∧ rm = low3 n.val)
    {reg : BitVec 3} {src2 : Src2 nreg} {imm8 : Byte} {bs rest : List Byte} (more : List Byte)
    (h : takeOperands regNo x b bs = some (reg, src2, imm8, rest)) :
    takeOperands regNo x b (bs ++ more) = some (reg, src2, imm8, rest ++ more) := by
  rw [takeOperands_eq_some_iff hreg] at h ⊢
  obtain ⟨hwf, hfits, rfl⟩ := h
  exact ⟨hwf, hfits, List.append_assoc _ _ _⟩

theorem decodeVex_append (p : Prefixes) (bs more : List Byte) :
    decodeVex p bs = .refused .truncated ∨ decodeVex p (bs ++ more) = (decodeVex p bs).leaving more := by
  match bs with
  | [] => exact .inl rfl
  | [_] => exact .inl rfl
  | [_, _] => exact .inl rfl
  | b1 :: b2 :: op :: bs =>
    simp only [List.cons_append, decodeVex]
    split_ifs
    · exact .inr rfl
    · exact .inr rfl
    · exact .inr rfl
    · cases h : takeOperands (reg4 (!b1.getLsbD 5)) (!b1.getLsbD 6) (!b1.getLsbD 5) bs with
      | none => exact .inl rfl
      | some r => exact .inr (by rw [takeOperands_append reg4_eq_iff_fits more h]; rfl)

theorem decodeEvex_append (p : Prefixes) (bs more : List Byte) :
    decodeEvex p bs = .refused .truncated ∨ decodeEvex p (bs ++ more) = (decodeEvex p bs).leaving more := by
  match bs with
  | [] => exact .inl rfl
  | [_] => exact .inl rfl
  | [_, _] => exact .inl rfl
  | [_, _, _] => exact .inl rfl
  | p0 :: p1 :: p2 :: op :: bs =>
    simp only [List.cons_append, decodeEvex]
    cases evexRow op (p1.getLsbD 7) (p2.extractLsb' 5 2) with
    | none => split_ifs <;> exact .inr rfl
    | some row =>
      dsimp only
      split_ifs
      · exact .inr rfl
      · exact .inr rfl
      · exact .inr rfl
      · exact .inr rfl
      · cases h : takeOperands (reg5 (!p0.getLsbD 6) (!p0.getLsbD 5)) (!p0.getLsbD 6) (!p0.getLsbD 5) bs with
        | none => exact .inl rfl
        | some r => exact .inr (by rw [takeOperands_append reg5_eq_iff_fits more h]; rfl)

theorem decodeFrom_append (p : Prefixes) (bad : Bool) (bs more : List Byte) :
    decodeFrom p bad bs = .refused .truncated ∨
      decodeFrom p bad (bs ++ more) = (decodeFrom p bad bs).leaving more := by
  induction bs generalizing p bad with
  | nil => exact .inl rfl
  | cons c bs ih =>
    simp only [List.cons_append, decodeFrom]
    split_ifs
    · exact .inr rfl
    · exact decodeVex_append p bs more
    · exact .inr rfl
    · exact decodeEvex_append p bs more
    · exact ih p true
    · exact ih p true
    · exact .inr rfl
    · exact ih _ false
    · cases segOverrideOf c with
      | none => exact .inr rfl
      | some g => exact ih p true
    · cases segOverrideOf c <;> exact .inr rfl
    · cases segOverrideOf c with
      | none => exact .inr rfl
      | some g => exact ih _ false

/-- An instruction that is cut short is no instruction, for want of bytes. -/
theorem decode_cut {bs more : List Byte} {i : Instr} (hmore : more ≠ []) (h : decode (bs ++ more) = .instr i []) :
    decode bs = .refused .truncated := by
  refine (decodeFrom_append _ _ bs more).resolve_right fun happend => hmore ?_
  have hleaving : (decode bs).leaving more = .instr i [] := happend.symm.trans h
  cases hbs : decode bs with
  | instr j rest =>
    rw [hbs, Decoded.leaving, Decoded.instr.injEq] at hleaving
    exact (List.append_eq_nil_iff.1 hleaving.2).2
  | invalidOpcode =>
    rw [hbs] at hleaving
    cases hleaving
  | refused why =>
    rw [hbs] at hleaving
    cases hleaving

end Sys2Proof
end

section
/-! PROOFS. Steps and runs (`spec/70_reset_and_hazards.md` R190 to R195, `spec/10_state.md` R28): what refuses a step,
the instruction a step runs, and how a run of a program ends. -/

namespace Sys2Proof.Machine

/-! ### What a step is -/

/-- A step runs the instruction its bytes decode to. -/
theorem step_of_decode_instr {s : State} {i : Instr} {rest : List Byte} (hs : s.Steps)
    (h : decode s.fetch = .instr i rest) : step s = exec i s := by
  rw [step, launchRefusal_eq_none.2 hs, h]

/-- A step refuses the bytes the decoder refuses. -/
theorem step_of_decode_refused {s : State} {why : Undecoded} (hs : s.Steps) (h : decode s.fetch = .refused why) :
    step s = refuseBytes s.fetch why := by
  rw [step, launchRefusal_eq_none.2 hs, h]

theorem step_of_launchRefusal {s : State} {r : Refusal} (h : s.launchRefusal = some r) : step s = .refused r := by
  rw [step, h]

/-- A state that does not meet the launch premises does not step. -/
theorem step_refused_of_not_steps {s : State} (hs : ¬s.Steps) : ∃ r, step s = .refused r := by
  cases h : s.launchRefusal with
  | none => exact absurd (launchRefusal_eq_none.1 h) hs
  | some r => exact ⟨r, step_of_launchRefusal h⟩

/-- Settles O12: the cases of the decoder's answer. -/
theorem stepRunsDecodedInstruction : Obligations.StepRunsDecodedInstruction := by
  intro s hs
  refine ⟨fun i rest => step_of_decode_instr hs, step_of_decode_invalidOpcode hs, step_of_decode_refused hs,
    step_of_decode_refused hs, step_of_decode_refused hs, fun h => ?_⟩
  rw [step_of_decode_refused hs h, refuseBytes, maxLen]
  split_ifs <;> rfl

/-! ### An instruction placed in memory (R191, R194) -/

theorem fetch_length (s : State) : s.fetch.length = min 15 (s.text.base + s.text.size - s.rip.toNat) := by
  simp [State.fetch, maxLen]

theorem fetch_getElem (s : State) (j : Nat) (h : j < s.fetch.length) :
    s.fetch[j] = s.mem.readByte (s.rip.toNat + j) := by
  simp [State.fetch]

/-- Bytes that stand at `rip` and are fetched are what is fetched first. -/
theorem fetch_eq_append {s : State} {bs : List Byte} (hlen : bs.length ≤ s.fetch.length)
    (hbs : ∀ (j : Nat) (h : j < bs.length), s.mem.readByte (s.rip.toNat + j) = bs[j]) :
    ∃ rest, s.fetch = bs ++ rest := by
  have htake : s.fetch.take bs.length = bs := by
    refine List.ext_getElem (by simpa using hlen) fun j _ hj => ?_
    rw [List.getElem_take, fetch_getElem, hbs j hj]
  exact ⟨s.fetch.drop bs.length, by rw [← htake, List.length_take_of_le hlen, List.take_append_drop]⟩

/-- Settles O13: what is fetched begins with the encoding, or is what the program holds of it. -/
theorem stepRunsPlacedInstruction : Obligations.StepRunsPlacedInstruction := by
  intro s i reversed turn hs hwf
  have hlen : (i.encodingWith reversed turn).length ≤ 14 := by
    rw [encodingWith_length]
    exact (encode_length i).2.2
  have hfetch := fetch_length s
  refine ⟨fun hend hbytes => ?_, fun n hn hend hbytes => ?_⟩
  · obtain ⟨rest, hrest⟩ := fetch_eq_append (by omega) hbytes
    have hdecode := (decodesExactlyItsEncodings s.fetch rest i).2 ⟨hwf, reversed, turn, hrest⟩
    exact step_of_decode_instr hs hdecode
  · have htake : s.fetch = (i.encodingWith reversed turn).take n := by
      refine List.ext_getElem (by rw [List.length_take]; omega) fun j hj _ => ?_
      rw [fetch_getElem, List.getElem_take, hbytes j (by omega) (by omega)]
    have hdecode : decode s.fetch = .refused .truncated := by
      refine decode_cut (more := (i.encodingWith reversed turn).drop n) (i := i) ?_ ?_
      · simpa using hn
      · rw [htake, List.take_append_drop]
        exact (decodesExactlyItsEncodings _ [] i).2 ⟨hwf, reversed, turn, (List.append_nil _).symm⟩
    have hshort : s.fetch.length < maxLen := by
      rw [maxLen]
      omega
    rw [step_of_decode_refused hs hdecode]
    exact if_pos hshort

/-! ### What refuses a step (R191, R28, R194) -/

/-- Settles O14: the tests of `State.launchRefusal` in their order; a run launched elsewhere is refused by its first
step. -/
theorem stepRefusesLaunchOutsidePremises : Obligations.StepRefusesLaunchOutsidePremises := by
  intro s
  have hrefuse {r : Refusal} (h : s.launchRefusal = some r) : step s = .refused r := step_of_launchRefusal h
  have hnoAc (hac : ¬s.AlignmentChecking) : s.acEnabled = false := eq_false_of_ne_true (hac ∘ (acEnabled_iff s).1)
  refine ⟨fun hmode => hrefuse (if_pos hmode), fun hmode hac => hrefuse ?_, fun hmode hac hwrapped => hrefuse ?_,
    fun hmode hac hwrapped => ⟨fun j hj hfetch => hrefuse ?_, fun htext hout => hrefuse ?_,
      fun htext hbase hend hrunning => hrefuse ?_⟩, fun hstart => ?_⟩
  · simp [State.launchRefusal, hmode, (acEnabled_iff s).2 hac]
  · simp [State.launchRefusal, hmode, hnoAc hac, hwrapped]
  · have htext : s.textFetchable = false := by
      refine eq_false_of_ne_true fun htext => ?_
      cases hfetch.symm.trans ((textFetchable_iff s).1 htext j hj)
    simp [State.launchRefusal, hmode, hnoAc hac, hwrapped, htext]
  · have hcovers : s.text.covers s.rip.toNat = false := by
      refine eq_false_of_ne_true fun hcovers => ?_
      have := (inText_iff s).1 hcovers
      omega
    simp [State.launchRefusal, hmode, hnoAc hac, hwrapped, (textFetchable_iff s).2 htext, hcovers]
  · have hcovers : s.text.covers s.rip.toNat = true := (inText_iff s).2 ⟨hbase.le, hend⟩
    simp [State.launchRefusal, hmode, hnoAc hac, hwrapped, (textFetchable_iff s).2 htext, hcovers, hrunning, hbase.ne']
  · obtain ⟨r, hr⟩ := step_refused_of_not_steps (s := s.launched) fun hs => hstart (hs.start rfl)
    exact ⟨r, fun k => by rw [runProgram, runTo, hr]⟩

/-- Settles O15: `State.after` notes the wrap, and a state with the note does not meet the launch premises. -/
theorem noStepAfterWrap : Obligations.NoStepAfterWrap := by
  intro i s t h
  obtain ⟨r, rfl⟩ := exec_next h
  have hwrapped : (s.after i r).wrapped = true ↔ s.wrapped = true ∨ 2 ^ 64 ≤ s.rip.toNat + i.len := by
    rw [State.after, Bool.or_eq_true, decide_eq_true_iff]
  refine ⟨rfl, hwrapped, fun hwrap => step_refused_of_not_steps fun hs => ?_⟩
  cases hs.noWrap.symm.trans (hwrapped.2 (.inr hwrap))

/-! ### Runs (R194, D22) -/

/-- A step that goes on runs an instruction of 6 to 14 bytes that ends within the program. -/
theorem step_next_within {s t : State} (h : step s = .next t) : s.Steps ∧ ∃ i, exec i s = .next t ∧
    6 ≤ i.len ∧ i.len ≤ 14 ∧ s.rip.toNat + i.len ≤ s.text.base + s.text.size := by
  obtain ⟨hs, i, rest, hdecode, hexec⟩ := step_next h
  obtain ⟨_, _, used, hused, hlen⟩ := decodedInstructionUsesLenBytes _ _ _ hdecode
  obtain ⟨_, hmin, hmax⟩ := encode_length i
  obtain ⟨_, hend⟩ := hs.inText
  have hfetch := fetch_length s
  have hle : i.len ≤ s.fetch.length := by
    rw [hused, List.length_append, hlen]
    omega
  exact ⟨hs, i, hexec, hmin, hmax, by omega⟩

/-- A program whose bytes may all be fetched ends at or below address 2^64. -/
theorem textEnd_le {s : State} (hs : s.Steps) : s.text.base + s.text.size ≤ 2 ^ 64 := by
  obtain ⟨hbase, hend⟩ := hs.inText
  have hlast := hs.text (s.text.size - 1) (by omega)
  simp only [State.fetchable, Bool.and_eq_true, decide_eq_true_eq] at hlast
  omega

/-- `t` is `s` but for vector registers, `rip` and the notes on the run. -/
def State.SameFrame (s t : State) : Prop :=
  ∃ v rip running wrapped, t = { s with v := v, rip := rip, running := running, wrapped := wrapped }

theorem State.SameFrame.trans {s t u : State} (h : s.SameFrame t) (h' : t.SameFrame u) : s.SameFrame u := by
  obtain ⟨_, _, _, _, rfl⟩ := h
  obtain ⟨_, _, _, _, rfl⟩ := h'
  exact ⟨_, _, _, _, rfl⟩

/-- `t` lies `n` bytes of the program on from `s`: a run took it there, and has noted whether it reached address
2^64. -/
structure State.Advanced (s t : State) (n : Nat) : Prop where
  frame   : s.SameFrame t
  rip     : t.rip = s.rip + BitVec.ofNat 64 n
  wrapped : t.wrapped = decide (2 ^ 64 ≤ s.rip.toNat + n)
  within  : s.rip.toNat + n ≤ s.text.base + s.text.size
  below   : s.text.base + s.text.size ≤ 2 ^ 64

section
variable {s t : State} {n : Nat} (h : s.Advanced t n)
include h

theorem State.Advanced.text_eq : t.text = s.text := by
  obtain ⟨_, _, _, _, rfl⟩ := h.frame
  rfl

/-- Below the top of the address space `rip` is the exact sum. -/
theorem State.Advanced.rip_toNat (hbelow : s.rip.toNat + n < 2 ^ 64) : t.rip.toNat = s.rip.toNat + n := by
  rw [h.rip, BitVec.toNat_add, BitVec.toNat_ofNat, Nat.add_mod_mod, Nat.mod_eq_of_lt hbelow]

/-- A run has ended exactly when the program has no byte left. -/
theorem State.Advanced.rip_eq_textEnd_iff (hn : 0 < n) :
    t.rip = t.textEnd ↔ s.rip.toNat + n = s.text.base + s.text.size := by
  have htext := h.text_eq
  obtain ⟨_, hrip, _, hwithin, hbelow⟩ := h
  have hsum : s.rip + BitVec.ofNat 64 n = BitVec.ofNat 64 (s.rip.toNat + n) := by
    rw [BitVec.ofNat_add, BitVec.ofNat_toNat, BitVec.setWidth_eq]
  rw [State.textEnd, htext, hrip, hsum, ← BitVec.toNat_inj, BitVec.toNat_ofNat, BitVec.toNat_ofNat]
  omega

/-- A run that has not ended has bytes of its program left. -/
theorem State.Advanced.lt_of_rip_ne (hn : 0 < n) (hne : t.rip ≠ t.textEnd) :
    s.rip.toNat + n < s.text.base + s.text.size :=
  lt_of_le_of_ne h.within (mt (h.rip_eq_textEnd_iff hn).2 hne)

/-- A stretch that does not end the program goes on with another. -/
theorem State.Advanced.trans {u : State} {m : Nat} (hlt : s.rip.toNat + n < s.text.base + s.text.size)
    (h' : t.Advanced u m) : s.Advanced u (n + m) := by
  have hrip := h.rip_toNat (hlt.trans_le h.below)
  have htext := h.text_eq
  obtain ⟨hframe', hrip', hwrapped', hwithin', _⟩ := h'
  rw [htext, hrip] at hwithin'
  rw [hrip] at hwrapped'
  refine ⟨h.frame.trans hframe', ?_, ?_, ?_, h.below⟩
  · rw [hrip', h.rip, BitVec.add_assoc, BitVec.ofNat_add]
  · rw [hwrapped', Nat.add_assoc]
  · omega

end

/-- A step that goes on advances by the length of an instruction. -/
theorem step_next_advanced {s t : State} (h : step s = .next t) :
    s.Steps ∧ ∃ n, 6 ≤ n ∧ n ≤ 14 ∧ s.Advanced t n := by
  obtain ⟨hs, i, hexec, hmin, hmax, hend⟩ := step_next_within h
  obtain ⟨r, rfl⟩ := exec_next hexec
  refine ⟨hs, i.len, hmin, hmax, ⟨_, _, _, _, rfl⟩, rfl, ?_, hend, textEnd_le hs⟩
  rw [State.after, hs.noWrap, Bool.false_or]

/-- A run that ends at the end of its program has run whole instructions up to there. -/
theorem runTo_final {k : Nat} {s t : State} (h : runTo k s = .final t) : s.Steps ∧ ∃ steps n, 1 ≤ steps ∧ steps ≤ k ∧
    6 * steps ≤ n ∧ n ≤ 14 * steps ∧ s.Advanced t n ∧ s.rip.toNat + n = s.text.base + s.text.size := by
  induction k generalizing s with
  | zero => cases h
  | succ k ih =>
    rw [runTo] at h
    split at h
    case h_1 u hstep =>
      obtain ⟨hs, n, hmin, hmax, hu⟩ := step_next_advanced hstep
      refine ⟨hs, ?_⟩
      split_ifs at h with hlast
      · cases h
        have hend := (hu.rip_eq_textEnd_iff (by omega)).1 hlast
        exact ⟨1, n, le_rfl, by omega, by omega, by omega, hu, hend⟩
      · obtain ⟨_, steps, m, hone, hk, hmin', hmax', ht, hm⟩ := ih h
        have hlt := hu.lt_of_rip_ne (by omega) hlast
        rw [hu.text_eq, hu.rip_toNat (hlt.trans_le hu.below)] at hm
        exact ⟨steps + 1, n + m, by omega, by omega, by omega, by omega, hu.trans hlt ht, by omega⟩
    case h_2 => cases h
    case h_3 => cases h

/-- Settles O31: the run has advanced to the end of the program, where the step is refused. -/
theorem finishedRunChangesOnlyVectorsAndRip : Obligations.FinishedRunChangesOnlyVectorsAndRip := by
  intro k s t h
  obtain ⟨hs, steps, n, hone, hk, hmin, hmax, ht, hend⟩ := runTo_final h
  have hrip : t.rip = BitVec.ofNat 64 (s.text.base + s.text.size) := by
    have h := (ht.rip_eq_textEnd_iff (by omega)).2 hend
    rwa [State.textEnd, ht.text_eq] at h
  have hstart : s.running = false → s.rip.toNat = s.text.base ∧ n = s.text.size := fun hrunning => by
    have := hs.start hrunning
    omega
  have hexact := ht.rip_toNat
  refine ⟨hrip, ⟨steps, n, hone, hk, hmin, hmax, ht.rip, hend, hend ▸ ht.below, hstart⟩, ?_⟩
  obtain ⟨⟨v, rip, running, wrapped, rfl⟩, _, hwrapped, _, hbelow⟩ := ht
  refine ⟨rfl, rfl, rfl, rfl, rfl, rfl, rfl, rfl, rfl, rfl, rfl, rfl, rfl, rfl, fun _ => rfl, ?_⟩
  obtain ⟨_, _, hwraps, hrest, _⟩ :=
    stepRefusesLaunchOutsidePremises { s with v := v, rip := rip, running := running, wrapped := wrapped }
  rw [hend] at hwrapped hexact
  split_ifs with htop
  · exact hwraps hs.mode64 hs.noAc (by rw [hwrapped, htop]; rfl)
  · have hlt : s.text.base + s.text.size < 2 ^ 64 := by omega
    have hwrapped : wrapped = false := hwrapped.trans (decide_eq_false (by omega))
    obtain ⟨_, houtside, _⟩ := hrest hs.mode64 hs.noAc hwrapped
    exact houtside hs.text (.inr (hexact hlt).ge)

/-- A run that has not ended has taken fewer steps than the program has bytes from its `rip` on. -/
theorem runTo_unfinished {k : Nat} {s u : State} (h : runTo k s = .unfinished u) :
    k = 0 ∨ (s.text.base ≤ s.rip.toNat ∧ s.rip.toNat + k < s.text.base + s.text.size) := by
  induction k generalizing s with
  | zero => exact .inl rfl
  | succ k ih =>
    rw [runTo] at h
    split at h
    case h_1 t hstep =>
      obtain ⟨hs, n, hmin, _, ht⟩ := step_next_advanced hstep
      obtain ⟨hbase, _⟩ := hs.inText
      split_ifs at h with hlast
      have hlt := ht.lt_of_rip_ne (by omega) hlast
      have hrest := ih h
      rw [ht.text_eq, ht.rip_toNat (hlt.trans_le ht.below)] at hrest
      exact .inr ⟨hbase, by omega⟩
    case h_2 => cases h
    case h_3 => cases h

/-- Settles O32: the bytes left shrink with every step, and there are no more than the program has. -/
theorem runsTerminate : Obligations.RunsTerminate := by
  refine ⟨fun s u h => ?_, fun s t h => ?_⟩
  · have := runTo_unfinished h
    omega
  · obtain ⟨_, i, hexec, hmin, _, hend⟩ := step_next_within h
    exact ⟨i, hexec, hmin, hend⟩

end Sys2Proof.Machine
end

section
/-! PROOFS. Addresses (`spec/20_memory.md` R53 to R57): what canonical means bit by bit, and the linear address as one
reduced sum of integers. -/

namespace Sys2Proof

/-! ### Canonical, readable and fetchable bytes (R57, R191) -/

/-- Bits 63 down to `n` of an address are all 0 or all 1 exactly when they equal bit 63. -/
theorem ushiftRight_uniform_iff {n : Nat} (hn : n ≤ 63) (a : Word64) :
    (a >>> n == 0 || a >>> n == BitVec.allOnes 64 >>> n) = true ↔
      ∀ j, n ≤ j → j ≤ 63 → a.getLsbD j = a.getLsbD 63 := by
  have hbits (c : Word64) : a >>> n = c >>> n ↔ ∀ j, n ≤ j → j ≤ 63 → a.getLsbD j = c.getLsbD j := by
    constructor
    · intro h j hj _
      have hbit := congrArg (·.getLsbD (j - n)) h
      simpa only [BitVec.getLsbD_ushiftRight, Nat.add_sub_cancel' hj] using hbit
    · intro h
      refine BitVec.eq_of_getLsbD_eq fun p _ => ?_
      rw [BitVec.getLsbD_ushiftRight, BitVec.getLsbD_ushiftRight]
      by_cases hp : n + p ≤ 63
      · exact h _ (Nat.le_add_right n p) hp
      · rw [BitVec.getLsbD_of_ge _ _ (by omega), BitVec.getLsbD_of_ge _ _ (by omega)]
  have hzero : (0 : Word64) >>> n = 0 := BitVec.zero_ushiftRight
  rw [Bool.or_eq_true, beq_iff_eq, beq_iff_eq, ← hzero, hbits, hbits]
  constructor
  · rintro (h | h) j hj hj'
    · rw [h j hj hj', h 63 hn le_rfl]
      exact BitVec.getLsbD_zero.trans BitVec.getLsbD_zero.symm
    · rw [h j hj hj', h 63 hn le_rfl, BitVec.getLsbD_allOnes, BitVec.getLsbD_allOnes]
      simp only [decide_eq_true (Nat.lt_succ_of_le hj')]
      rfl
  · intro h
    cases htop : a.getLsbD 63 with
    | false => exact .inl fun j hj hj' => (h j hj hj').trans (htop.trans BitVec.getLsbD_zero.symm)
    | true =>
      refine .inr fun j hj hj' => (h j hj hj').trans (htop.trans ?_)
      rw [BitVec.getLsbD_allOnes, decide_eq_true (Nat.lt_succ_of_le hj')]

/-- Settles O59: R57's condition at bits 47 and 56, and the definitions of readable and fetchable bytes. -/
theorem canonicalReadableAndFetchable : Obligations.CanonicalReadableAndFetchable := by
  refine ⟨ushiftRight_uniform_iff (n := 47) (by decide), ushiftRight_uniform_iff (n := 56) (by decide),
    fun s a => ⟨?_, ?_⟩⟩
  · simp [Machine.State.byteReadable, Region.covers]
  · simp [Machine.State.fetchable, and_assoc]

/-! ### The linear address (R54 to R56, R82, R88) -/

theorem signExtend_eq_ofInt (d : BitVec 32) : d.signExtend 64 = BitVec.ofInt 64 d.toInt := rfl

theorem disp_value_eq_ofInt (n : Nat) (disp : Disp) : disp.value n = BitVec.ofInt 64 (disp.int n) := by
  cases disp with
  | absent => rfl
  | disp8 d =>
    rw [Disp.value, Disp.int, BitVec.ofInt_mul, BitVec.ofInt_natCast]
    rfl
  | disp32 d => rfl

theorem factor_eq_ofInt (scale : Scale) : BitVec.ofNat 64 scale.factor = BitVec.ofInt 64 scale.multiplier := by
  cases scale <;> rfl

namespace Machine

/-- R54: base, scaled index and displacement added as words are their sum as integers, reduced. -/
theorem address_sum_eq_ofInt (n len : Nat) (m : MemOp) (s : State) :
    baseValue (m.address n) len s + indexValue (m.address n) s + (m.address n).disp =
      BitVec.ofInt 64 (m.sum n len s) := by
  cases m with
  | base b disp => simp [MemOp.address, baseValue, indexValue, MemOp.sum, BitVec.ofInt_add, disp_value_eq_ofInt]
  | ripRel d => simp [MemOp.address, baseValue, indexValue, MemOp.sum, BitVec.ofInt_add, signExtend_eq_ofInt]
  | sib scale index b disp =>
    cases index <;> simp [MemOp.address, baseValue, indexValue, MemOp.sum, BitVec.ofInt_add, BitVec.ofInt_mul,
      disp_value_eq_ofInt, factor_eq_ofInt]
  | sibNoBase scale index d =>
    cases index <;> simp [MemOp.address, baseValue, indexValue, MemOp.sum, BitVec.ofInt_add, BitVec.ofInt_mul,
      signExtend_eq_ofInt, factor_eq_ofInt]

/-- R54, R55: the effective address is the sum, reduced once. -/
theorem effectiveAddress_toNat (asz32 : Bool) (n len : Nat) (m : MemOp) (s : State) :
    ((effectiveAddress asz32 (m.address n) len s).toNat : Int) =
      m.sum n len s % (if asz32 then 2 ^ 32 else 2 ^ 64) := by
  have hword : ((BitVec.ofInt 64 (m.sum n len s)).toNat : Int) = m.sum n len s % 2 ^ 64 := by
    rw [BitVec.toNat_ofInt]
    exact Int.toNat_of_nonneg (Int.emod_nonneg _ (by decide))
  rw [effectiveAddress, address_sum_eq_ofInt]
  cases asz32 with
  | false => exact hword
  | true =>
    simp only [if_true, BitVec.toNat_setWidth]
    omega

/-- R33, R56: FS and GS alone have a base. -/
theorem segBase_toNat (seg : Option SegOverride) (s : State) : ((segBase seg s).toNat : Int) =
    if seg = some .fs then (s.fsBase.toNat : Int) else if seg = some .gs then (s.gsBase.toNat : Int) else 0 := by
  obtain _ | _ | _ | _ | _ | _ | _ := seg <;> rfl

/-- Settles O60: the effective address and the segment base are added and reduced. -/
theorem linearAddressIsTheReducedSum : Obligations.LinearAddressIsTheReducedSum := by
  intro p n len m s
  rw [linearAddress, BitVec.toNat_add, Int.natCast_mod, Int.natCast_add, effectiveAddress_toNat, segBase_toNat]
  rfl

end Machine
end Sys2Proof
end
